-- ==== Sys2Proof/Word.lean ====
section
/-! DEFINITION. The widths the spec uses (00_scope.md R8, R9) and what a host puts on the command port (30_encoding.md R70). -/

namespace Sys2Proof

/-- A 32-bit value: an accumulator register, a table entry, a command word, a RESULT (00_scope.md R8, R9). -/
abbrev Word := BitVec 32

/-- One byte of host memory, or the immediate byte of a command. -/
abbrev Byte := BitVec 8

/-- The 8-bit slot field `ACC` of a command word (30_encoding.md R71, R72). -/
abbrev SlotIx := BitVec 8

/-- One argument word on the port, wide enough for either `ADDR_W` (00_scope.md R7, 30_encoding.md R70). -/
abbrev ArgWord := BitVec 64

/-- What a host presents as one command: the command word and the argument words that follow it (30_encoding.md R70). -/
structure Command where
  word : Word
  args : List ArgWord
  deriving DecidableEq, Repr

/-- A file of 256 like registers, one for every value of an 8-bit index: the polynomial table (10_state.md R27), and the slot
file with its valid bits, whose index is the `ACC` field (30_encoding.md R72). -/
structure RegFile (α : Type) where
  cells : List α
  sized : cells.length = 256
  deriving DecidableEq, Repr

/-- The register at index `i`; every 8-bit index has one. -/
def RegFile.get {α : Type} (f : RegFile α) (i : BitVec 8) : α := f.cells[i.toNat]'(by rw [f.sized]; exact i.isLt)

/-- The file with `v` at index `i`. -/
def RegFile.set {α : Type} (f : RegFile α) (i : BitVec 8) (v : α) : RegFile α where
  cells := f.cells.set i.toNat v
  sized := by rw [List.length_set, f.sized]

/-- The file with `v` everywhere. -/
def RegFile.all {α : Type} (v : α) : RegFile α where
  cells := List.replicate 256 v
  sized := List.length_replicate

/-- The file with `g i` at index `i`. -/
def RegFile.ofFn {α : Type} (g : BitVec 8 → α) : RegFile α where
  cells := (List.range 256).map (fun i => g (BitVec.ofNat 8 i))
  sized := by rw [List.length_map, List.length_range]

end Sys2Proof
end

