-- ==== Sys2Proof/Config.lean ====
section
/-! DEFINITION. The implementation parameters of 00_scope.md R7 and the named variants of 10_state.md R24. The parameters travel in
`State.cfg`, so a statement about every state is a statement about every configuration (log entry 1). -/

namespace Sys2Proof

/-- `HW_LEVEL` (00_scope.md R7, 10_state.md R30): the CRC32C instructions the host CPU exposes. -/
inductive HwLevel where
  /-- 0: no CRC32C instruction. -/
  | none
  /-- 1: byte and 32-bit word instructions. -/
  | word32
  /-- 2: byte, 32-bit and 64-bit word instructions. -/
  | word64
  deriving DecidableEq, Repr

/-- `ADDR_W` (00_scope.md R7): the width of host addresses and of argument words. -/
inductive AddrWidth where
  | w32
  | w64
  deriving DecidableEq, Repr

/-- The number `ADDR_W` stands for. -/
def AddrWidth.bits : AddrWidth → Nat
  | .w32 => 32
  | .w64 => 64

/-- The four variants of the Acceleration Mode that `MODE` holds (10_state.md R24). -/
inductive Mode where
  /-- 0 -/
  | undetected
  /-- 1 -/
  | softwareTable
  /-- 2 -/
  | hardwareNarrow
  /-- 3 -/
  | hardwareWide
  deriving DecidableEq, Repr

/-- The parameters that are fixed for a run (00_scope.md R7, R15). `Readable` is held with the bytes it admits, in
`State.mem` (log entry 5). -/
structure Config where
  hwLevel : HwLevel
  accCount : Nat
  addrW : AddrWidth
  deriving DecidableEq, Repr

/-- `ACC_COUNT` is 1 to 256; the other parameters have only legal values (00_scope.md R7). -/
abbrev Config.Legal (c : Config) : Prop := 1 ≤ c.accCount ∧ c.accCount ≤ 256

end Sys2Proof
end

