-- ==== Sys2Proof/Machine/Reduction.lean ====
section
/-! DEFINITION. The reduction datapath (40_reduction.md): the bit step, the table function, the byte step, the word folds, the
three mode paths and the finalize transform. The hardware forms are the bit-serial ones of R113 (log entry 13); that they agree
with the byte step is stated, not assumed. -/

namespace Sys2Proof.Machine

/-- `P`, the reflected Castagnoli polynomial (00_scope.md R2, R13). -/
def poly : Word := 0x82F63B78

/-- `INIT`, the initial register value (00_scope.md R8, R13). -/
def initReg : Word := 0xFFFFFFFF

/-- `BitStep(r)` (R100). -/
def bitStep (r : Word) : Word := if r.getLsbD 0 then (r >>> 1) ^^^ poly else r >>> 1

/-- `BitStep^n(r)`. -/
def bitSteps : Nat → Word → Word
  | 0, r => r
  | n + 1, r => bitSteps n (bitStep r)

/-- The table function `T(i)` (R101). -/
def tableFn (i : Byte) : Word := bitSteps 8 (i.setWidth 32)

/-- `SwByte(r, b)`, the canonical byte step (R103). -/
def swByte (r : Word) (b : Byte) : Word := (r >>> 8) ^^^ tableFn (r.setWidth 8 ^^^ b)

/-- The software path's byte step, which reads `TABLE` at `(r & 0xFF) XOR b` (R103, R108). -/
def tableByte (table : RegFile Word) (r : Word) (b : Byte) : Word :=
  (r >>> 8) ^^^ table.get (r.setWidth 8 ^^^ b)

/-- `HwByte(r, b)`, in its bit-serial form (R104). -/
def hwByte (r : Word) (b : Byte) : Word := bitSteps 8 (r ^^^ b.setWidth 32)

/-- `HwW32(r, w)`, in its bit-serial form (R105). -/
def hwW32 (r w : Word) : Word := bitSteps 32 (r ^^^ w)

/-- `HwW64(r, w)`: the low half, then the high half (R106). -/
def hwW64 (r : Word) (w : BitVec 64) : Word := hwW32 (hwW32 r (w.extractLsb' 0 32)) (w.extractLsb' 32 32)

/-- `Fold(r, B)`, the reference fold (R107). -/
def fold (r : Word) (bytes : List Byte) : Word := bytes.foldl swByte r

/-- Four bytes as a little-endian word, the first in bits [7:0] (20_memory.md R50, R51). -/
def le32 (b0 b1 b2 b3 : Byte) : Word := (b3 ++ b2 ++ b1 ++ b0).cast (by decide)

/-- Eight bytes as a little-endian word, the first in bits [7:0] (20_memory.md R50, R51). -/
def le64 (b0 b1 b2 b3 b4 b5 b6 b7 : Byte) : BitVec 64 :=
  (b7 ++ b6 ++ b5 ++ b4 ++ b3 ++ b2 ++ b1 ++ b0).cast (by decide)

/-- Fold `k` words of four bytes (R109). -/
def foldWords32 : Nat → Word → List Byte → Word
  | k + 1, r, b0 :: b1 :: b2 :: b3 :: rest => foldWords32 k (hwW32 r (le32 b0 b1 b2 b3)) rest
  | _, r, _ => r

/-- Fold `k` words of eight bytes (R110). -/
def foldWords64 : Nat → Word → List Byte → Word
  | k + 1, r, b0 :: b1 :: b2 :: b3 :: b4 :: b5 :: b6 :: b7 :: rest =>
      foldWords64 k (hwW64 r (le64 b0 b1 b2 b3 b4 b5 b6 b7)) rest
  | _, r, _ => r

/-- `PathSW` (R108). -/
def pathSW (table : RegFile Word) (r : Word) (bytes : List Byte) : Word := bytes.foldl (tableByte table) r

/-- `PathN` (R109): `n div 4` words, then the 0 to 3 trailing bytes (R243: the count is a floor division on naturals). -/
def pathN (r : Word) (bytes : List Byte) : Word :=
  let k := bytes.length / 4
  (bytes.drop (4 * k)).foldl hwByte (foldWords32 k r bytes)

/-- `PathW` (R110): `n div 8` words, then the 0 to 7 trailing bytes, one at a time. -/
def pathW (r : Word) (bytes : List Byte) : Word :=
  let k := bytes.length / 8
  (bytes.drop (8 * k)).foldl hwByte (foldWords64 k r bytes)

/-- The three computation strategies (00_scope.md R3): the concrete variants of MODE. -/
inductive Strategy where
  | softwareTable
  | hardwareNarrow
  | hardwareWide
  deriving DecidableEq, Repr

/-- The MODE value of a strategy (10_state.md R24). -/
def strategyMode : Strategy → Mode
  | .softwareTable => .softwareTable
  | .hardwareNarrow => .hardwareNarrow
  | .hardwareWide => .hardwareWide

/-- `Path(MODE, r, B)` (R111). It takes a strategy, so it cannot be called with MODE = 0. -/
def path (table : RegFile Word) : Strategy → Word → List Byte → Word
  | .softwareTable, r, bytes => pathSW table r bytes
  | .hardwareNarrow, r, bytes => pathN r bytes
  | .hardwareWide, r, bytes => pathW r bytes

/-- UPDATE_ONE's byte step: the table in software mode, `HwByte` in both hardware modes (43_accumulator.md R155). -/
def byteStep (table : RegFile Word) : Strategy → Word → Byte → Word
  | .softwareTable, r, b => tableByte table r b
  | .hardwareNarrow, r, b => hwByte r b
  | .hardwareWide, r, b => hwByte r b

/-- `Fin(r)`, the finalize transform (R114). -/
def fin (r : Word) : Word := ~~~r

/-- The 256 entries a table build stores: `T(i)` at index `i` (42_table.md R140). -/
def builtTable : RegFile Word := RegFile.ofFn tableFn

end Sys2Proof.Machine
end

