-- ==== Sys2Proof/Syntax.lean ====
section
/-! DEFINITION. The nine commands, one constructor per row of the opcode table (30_encoding.md R74). -/

namespace Sys2Proof

/-- A decoded command. Argument words are natural numbers (30_encoding.md R73); the slot, the byte and the table index are the
8-bit fields of the command word (R72); the mode operand is read as a `MODE` value (R72). -/
inductive Instr where
  /-- ACC_NEW (43_accumulator.md R150). -/
  | accNew (a : SlotIx)
  /-- SET_MODE (41_capability.md R124). -/
  | setMode (m : Mode)
  /-- BUILD_TABLE (42_table.md R141). -/
  | buildTable
  /-- UPDATE (43_accumulator.md R160): BASE, LEN, OFF, CNT. -/
  | update (a : SlotIx) (base len off cnt : Nat)
  /-- UPDATE_ONE (43_accumulator.md R155). -/
  | updateOne (a : SlotIx) (b : Byte)
  /-- UPDATE_RAW (43_accumulator.md R165): PTR, CNT. -/
  | updateRaw (a : SlotIx) (ptr cnt : Nat)
  /-- FINALIZE (43_accumulator.md R170). -/
  | finalize (a : SlotIx)
  /-- GET_MODE (41_capability.md R127). -/
  | getMode
  /-- TABLE_READ (42_table.md R143). -/
  | tableRead (i : Byte)
  deriving DecidableEq, Repr

end Sys2Proof
end

