-- ==== Sys2Proof/WellFormed.lean ====
section
/-! DEFINITION. Which commands a command word and its argument words can express on a host of a given `ADDR_W`. -/

namespace Sys2Proof

/-- An argument word holds 0 .. 2^ADDR_W - 1 (30_encoding.md R73). -/
def argFits (w : AddrWidth) (n : Nat) : Bool := decide (n < 2 ^ w.bits)

/-- The one condition an encoding puts on a command: its argument words fit `ADDR_W` (30_encoding.md R70, R73). Whether a slot
exists and whether a mode is supported are checked when the command executes, not here (R77). -/
def Instr.wf (w : AddrWidth) : Instr → Bool
  | .accNew _ => true
  | .setMode _ => true
  | .buildTable => true
  | .update _ base len off cnt => argFits w base && argFits w len && argFits w off && argFits w cnt
  | .updateOne _ _ => true
  | .updateRaw _ ptr cnt => argFits w ptr && argFits w cnt
  | .finalize _ => true
  | .getMode => true
  | .tableRead _ => true

end Sys2Proof
end

