-- ==== Sys2Proof/Decode.lean ====
section
/-! DEFINITION. The command encoding (30_encoding.md): fields, opcode map, decoder, encoder, the match and mask rows, and the
word forms the host's checks use. -/

namespace Sys2Proof

/-! ### Fields of a command word (R71) -/

/-- `OP`, bits [31:28]. -/
def opField (w : Word) : BitVec 4 := w.extractLsb' 28 4

/-- `M`, bits [27:26]. -/
def mField (w : Word) : BitVec 2 := w.extractLsb' 26 2

/-- `Z`, bits [25:16], reserved. -/
def zField (w : Word) : BitVec 10 := w.extractLsb' 16 10

/-- `IMM8`, bits [15:8]. -/
def immField (w : Word) : Byte := w.extractLsb' 8 8

/-- `ACC`, bits [7:0]. -/
def accField (w : Word) : SlotIx := w.extractLsb' 0 8

/-- The number a `MODE` variant is encoded by (10_state.md R24). -/
def modeBits : Mode → BitVec 2
  | .undetected => 0
  | .softwareTable => 1
  | .hardwareNarrow => 2
  | .hardwareWide => 3

/-- The variant a 2-bit number encodes (10_state.md R24); all four are legal. -/
def modeOfBits (b : BitVec 2) : Mode :=
  if b = 0 then .undetected else if b = 1 then .softwareTable else if b = 2 then .hardwareNarrow else .hardwareWide

/-- `nargs(OP)`: how many argument words follow (R74, R81). -/
def nargs (op : BitVec 4) : Nat := if op = 4 then 4 else if op = 6 then 2 else 0

/-! ### Decoding (R72, R73, R74, R76) -/

/-- Why what a host presents is no legal command. Only `illegalCommand` is a case of the spec (R76); the others are about
argument words that are not those of R70, and stop the model (log entry 7). -/
inductive DecodeError where
  /-- The word matches no row of R75. -/
  | illegalCommand
  /-- Fewer argument words than the opcode takes. -/
  | missingArguments
  /-- More argument words than the opcode takes. -/
  | extraArguments
  /-- An argument word does not fit `ADDR_W` bits. -/
  | argumentTooWide
  deriving DecidableEq, Repr

/-- The error for a list of argument words whose length is not `n`. -/
def countError (n : Nat) (args : List ArgWord) : DecodeError :=
  if args.length < n then .missingArguments else .extraArguments

/-- Accept a command whose arguments fit `ADDR_W` (R73). -/
def accepted (w : AddrWidth) (i : Instr) : Except DecodeError Instr :=
  if i.wf w then .ok i else .error .argumentTooWide

/-- A command without argument words (R74). -/
def decodeArgs0 (i : Instr) (args : List ArgWord) : Except DecodeError Instr :=
  match args with
  | [] => .ok i
  | _ :: _ => .error .extraArguments

/-- UPDATE's `BASE, LEN, OFF, CNT`, in this order (R73). -/
def decodeArgs4 (w : AddrWidth) (a : SlotIx) (args : List ArgWord) : Except DecodeError Instr :=
  match args with
  | [base, len, off, cnt] => accepted w (.update a base.toNat len.toNat off.toNat cnt.toNat)
  | other => .error (countError 4 other)

/-- UPDATE_RAW's `PTR, CNT`, in this order (R73). -/
def decodeArgs2 (w : AddrWidth) (a : SlotIx) (args : List ArgWord) : Except DecodeError Instr :=
  match args with
  | [ptr, cnt] => accepted w (.updateRaw a ptr.toNat cnt.toNat)
  | other => .error (countError 2 other)

/-- Decode when the must-be-0 fields are 0, else the word is illegal and no argument words are taken (R76). -/
def whenZero (zero : Bool) (r : Except DecodeError Instr) : Except DecodeError Instr :=
  if zero then r else .error .illegalCommand

/-- The decoder, total on every word and every list of argument words (R74, R76). -/
def decode (w : AddrWidth) (c : Command) : Except DecodeError Instr :=
  let x := c.word
  let m0 := mField x == 0
  let z0 := zField x == 0
  let i0 := immField x == 0
  let a0 := accField x == 0
  if opField x = 0x1 then whenZero (m0 && z0 && i0) (decodeArgs0 (.accNew (accField x)) c.args)
  else if opField x = 0x2 then whenZero (z0 && i0 && a0) (decodeArgs0 (.setMode (modeOfBits (mField x))) c.args)
  else if opField x = 0x3 then whenZero (m0 && z0 && i0 && a0) (decodeArgs0 .buildTable c.args)
  else if opField x = 0x4 then whenZero (m0 && z0 && i0) (decodeArgs4 w (accField x) c.args)
  else if opField x = 0x5 then whenZero (m0 && z0) (decodeArgs0 (.updateOne (accField x) (immField x)) c.args)
  else if opField x = 0x6 then whenZero (m0 && z0 && i0) (decodeArgs2 w (accField x) c.args)
  else if opField x = 0x7 then whenZero (m0 && z0 && i0) (decodeArgs0 (.finalize (accField x)) c.args)
  else if opField x = 0x8 then whenZero (m0 && z0 && i0 && a0) (decodeArgs0 .getMode c.args)
  else if opField x = 0x9 then whenZero (m0 && z0 && a0) (decodeArgs0 (.tableRead (immField x)) c.args)
  else .error .illegalCommand

/-! ### Encoding (R71, R74, R82) -/

/-- Format CMD: `OOOOMMZZZZZZZZZZIIIIIIIIAAAAAAAA` with `Z` = 0 (R71), put together as in the assembler's table (R82). -/
def cmdWord (op : BitVec 4) (m : BitVec 2) (imm : Byte) (a : SlotIx) : Word :=
  (op.setWidth 32 <<< 28) ||| (m.setWidth 32 <<< 26) ||| (imm.setWidth 32 <<< 8) ||| a.setWidth 32

/-- An argument word for a natural number (R73). -/
def argWord (n : Nat) : ArgWord := BitVec.ofNat 64 n

/-- The words of a command, written from the opcode map (R74) and the assembler's table (R82). -/
def encode : Instr → Command
  | .accNew a => { word := cmdWord 0x1 0 0 a, args := [] }
  | .setMode m => { word := cmdWord 0x2 (modeBits m) 0 0, args := [] }
  | .buildTable => { word := cmdWord 0x3 0 0 0, args := [] }
  | .update a base len off cnt => { word := cmdWord 0x4 0 0 a, args := [argWord base, argWord len, argWord off, argWord cnt] }
  | .updateOne a b => { word := cmdWord 0x5 0 b a, args := [] }
  | .updateRaw a ptr cnt => { word := cmdWord 0x6 0 0 a, args := [argWord ptr, argWord cnt] }
  | .finalize a => { word := cmdWord 0x7 0 0 a, args := [] }
  | .getMode => { word := cmdWord 0x8 0 0 0, args := [] }
  | .tableRead i => { word := cmdWord 0x9 0 i 0, args := [] }

/-! ### The match and mask rows (R75) -/

/-- One row of R75. -/
structure OpcodeRow where
  mnemonic : String
  pattern : Word
  mask : Word
  deriving DecidableEq, Repr

/-- R75's table, letter for letter. -/
def opcodeRows : List OpcodeRow :=
  [ { mnemonic := "ACC_NEW", pattern := 0x10000000, mask := 0xFFFFFF00 },
    { mnemonic := "SET_MODE", pattern := 0x20000000, mask := 0xF3FFFFFF },
    { mnemonic := "BUILD_TABLE", pattern := 0x30000000, mask := 0xFFFFFFFF },
    { mnemonic := "UPDATE", pattern := 0x40000000, mask := 0xFFFFFF00 },
    { mnemonic := "UPDATE_ONE", pattern := 0x50000000, mask := 0xFFFF0000 },
    { mnemonic := "UPDATE_RAW", pattern := 0x60000000, mask := 0xFFFFFF00 },
    { mnemonic := "FINALIZE", pattern := 0x70000000, mask := 0xFFFFFF00 },
    { mnemonic := "GET_MODE", pattern := 0x80000000, mask := 0xFFFFFFFF },
    { mnemonic := "TABLE_READ", pattern := 0x90000000, mask := 0xFFFF00FF } ]

/-- `(x & mask) = match` (R75). -/
def rowMatches (r : OpcodeRow) (x : Word) : Bool := (x &&& r.mask) == r.pattern

/-- A word is legal when it matches a row (R76). -/
def legalWord (x : Word) : Bool := opcodeRows.any (fun r => rowMatches r x)

/-- The mnemonic of a command, as the opcode table spells it (R74). -/
def mnemonicOf : Instr → String
  | .accNew _ => "ACC_NEW"
  | .setMode _ => "SET_MODE"
  | .buildTable => "BUILD_TABLE"
  | .update _ _ _ _ _ => "UPDATE"
  | .updateOne _ _ => "UPDATE_ONE"
  | .updateRaw _ _ _ => "UPDATE_RAW"
  | .finalize _ => "FINALIZE"
  | .getMode => "GET_MODE"
  | .tableRead _ => "TABLE_READ"

/-! ### Pseudo-instructions (R83) -/

/-- `crc.all a<n>, <base>, <len>` stands for `crc.update a<n>, <base>, <len>, 0, <len>` (R83). -/
def pseudoCrcAll (a : SlotIx) (base len : Nat) : Instr := .update a base len 0 len

/-- `mode.redetect` stands for `mode.set undetected` (R83). -/
def pseudoRedetect : Instr := .setMode .undetected

/-! ### An instruction given as one number -/

/-- The argument word number `j` of an instruction numbered `n`: the command word's 32 bits come first, then each argument's
`ADDR_W` bits. -/
def numberedArg (w : AddrWidth) (n j : Nat) : ArgWord := BitVec.ofNat 64 ((n >>> (32 + w.bits * j)) % 2 ^ w.bits)

/-- The command whose bits, up to `nbits`, are those of `n` and 0 above: the command word and as many argument words as its
opcode takes (R70, R81). An illegal word takes none (R76). -/
def numberedCommand (w : AddrWidth) (nbits n : Nat) : Command :=
  let k := n % 2 ^ nbits
  let x := BitVec.ofNat 32 k
  { word := x, args := if legalWord x then (List.range (nargs (opField x))).map (numberedArg w k) else [] }

/-- What the decoder reads from an instruction whose bits, numbered from bit 0 of the command word, are `w`. -/
def decodeTableWord (nbits w : Nat) : Option Instr :=
  match decode .w64 (numberedCommand .w64 nbits w) with
  | .ok i => some i
  | .error _ => none

end Sys2Proof
end

