-- ==== Sys2Proof/Machine/State.lean ====
section
/-! DEFINITION. The state of 10_state.md (R20-R35), beside it the configuration and the host's side of a step (00_scope.md R15):
host memory, the command port and the response. -/

namespace Sys2Proof.Machine

/-- The fault causes of 60_exceptions.md R200; NONE is `none`. -/
inductive Cause where
  /-- 1 -/
  | illegalCommand
  /-- 2 -/
  | badSlot
  /-- 3 -/
  | slotNotInitialised
  /-- 4 -/
  | modeUnsupported
  /-- 5 -/
  | memoryFault
  /-- 6 -/
  | tableNotBuilt
  deriving DecidableEq, Repr

/-- A response (30_encoding.md R78-R80). RESULT stands only beside OK, CAUSE only beside FAULT, so no other response can give
one a value. -/
inductive Response where
  /-- STATUS = OK, with RESULT where the command has one (R79). -/
  | ok (result : Option Word)
  /-- STATUS = OUT_OF_RANGE (60_exceptions.md R205). -/
  | outOfRange
  /-- STATUS = FAULT, with CAUSE (60_exceptions.md R201). -/
  | fault (cause : Cause)
  deriving DecidableEq, Repr

/-- What the host agents do, in the one total order of 20_memory.md R60. -/
inductive PortEvent where
  /-- A host agent issues a command (10_state.md R31). -/
  | command (c : Command)
  /-- A host agent writes one byte of host memory, between commands (20_memory.md R60, R65). -/
  | hostWrite (addr : Nat) (byte : Byte)
  deriving DecidableEq, Repr

/-- Why the model stops. Only `step`, taking an item off the port, raises one: no instruction's meaning does. Each is safe: the
item is no command of 30_encoding.md R70, the spec says nothing of it, and the model claims nothing (log entry 7). -/
inductive Fault where
  /-- Raised by `step`: fewer argument words than the opcode takes. Safe. -/
  | missingArguments
  /-- Raised by `step`: more argument words than the opcode takes. Safe. -/
  | extraArguments
  /-- Raised by `step`: an argument word that does not fit `ADDR_W` bits. Safe. -/
  | argumentTooWide
  deriving DecidableEq, Repr

/-- Why the model has no meaning for an instruction. -/
inductive Refusal where
  /-- Raised by an arm of `exec` for an instruction without a meaning; no arm of this model raises it. Safe. -/
  | notModelled (mnemonic : String)
  deriving DecidableEq, Repr

/-- The machine. The first six fields are the whole state of the block (10_state.md). Slots of `acc` and `accValid` from
`cfg.accCount` up do not exist: every command checks its slot first (log entry 4). -/
structure State where
  /-- `MODE` (R24). -/
  mode : Mode
  /-- `TABLE[0..255]` (R27). -/
  table : RegFile Word
  /-- `TABLE_VALID` (R27). -/
  tableValid : Bool
  /-- `ACC[a]` (R20). -/
  acc : RegFile Word
  /-- `ACC_VALID[a]` (R21). -/
  accValid : RegFile Bool
  /-- `FAULT` (R29), `none` for NONE. -/
  fault : Option Cause
  /-- `HW_LEVEL`, `ACC_COUNT`, `ADDR_W` (00_scope.md R7, 10_state.md R30): no step writes it (log entry 1). -/
  cfg : Config
  /-- Host memory: the bytes that are `Readable`, with their values, addresses rising (20_memory.md R52; log entry 5). -/
  mem : List Host.Cell
  /-- What the host agents have still to do, oldest first (10_state.md R31, 20_memory.md R60; log entry 6). -/
  port : List PortEvent
  /-- The response last returned to a host agent (00_scope.md R15); the model's own field (log entry 8). -/
  response : Option Response
  /-- The position in the host's program: how many commands completed (10_state.md R31). -/
  position : Nat
  deriving DecidableEq, Repr

/-- The block right after reset (10_state.md R35, 70_reset_and_hazards.md R230) on a host of configuration `c`, with readable
memory `m` and the host's program `p` on the port. TABLE and ACC "hold no value": the zeros are the model's and no command can
see them (log entries 2, 3). -/
def State.resetWith (c : Config) (m : List Host.Cell) (p : List PortEvent) : State where
  mode := .undetected
  table := RegFile.all 0
  tableValid := false
  acc := RegFile.all 0
  accValid := RegFile.all false
  fault := none
  cfg := c
  mem := m
  port := p
  response := none
  position := 0

/-- The configuration `State.reset` stands on; the spec leaves it open (log entry 1). -/
def resetConfig : Config where
  hwLevel := .word64
  accCount := 256
  addrW := .w64

/-- The machine right after reset, with no readable memory and nothing on the port (log entries 1, 5, 6). -/
def State.reset : State := State.resetWith resetConfig [] []

end Sys2Proof.Machine
end

