-- ==== Sys2Proof/Machine/Ops.lean ====
section
/-! DEFINITION. The shared operations: host memory (20_memory.md), the slot file and the table (10_state.md), ending a command,
raising a fault and the common checks (60_exceptions.md R201, R205, R206), detection and the table build (41_capability.md R120,
42_table.md R140, R142), and taking the next item off the command port. -/

namespace Sys2Proof.Machine

/-- What a command, and a step, answers. -/
abbrev StepResult := Host.Outcome State Fault Refusal

/-! ### Host memory (20_memory.md) -/

/-- Addresses strictly rising from `lo` on. -/
def Memory.wfFrom : Nat → List Host.Cell → Bool
  | _, [] => true
  | lo, c :: rest => decide (lo ≤ c.1) && Memory.wfFrom (c.1 + 1) rest

/-- The canonical form: addresses strictly rising. An unlisted address has no value, so no entry can equal it (log entry 5). -/
def Memory.wf (m : List Host.Cell) : Bool := Memory.wfFrom 0 m

/-- `B(x)` (R51), where `Readable(x)` holds; what an unlisted address reads as is `none`, no value (log entry 5). -/
def readByte : List Host.Cell → Nat → Option Byte
  | [], _ => none
  | c :: rest, x => if c.1 = x then some c.2 else readByte rest x

/-- `Readable(x)` (00_scope.md R7, 20_memory.md R52). -/
def readable (m : List Host.Cell) (x : Nat) : Bool := (readByte m x).isSome

/-- A host agent writes a byte (R60). `Readable` is a parameter and does not change (00_scope.md R15), and a byte that is not
readable cannot be seen by the block: a write to one leaves what the model holds as it is (log entry 11). -/
def hostWriteByte : List Host.Cell → Nat → Byte → List Host.Cell
  | [], _, _ => []
  | c :: rest, x, b => if c.1 = x then (x, b) :: rest else c :: hostWriteByte rest x b

/-- The bytes at `p, p+1, ..., p+n-1`, in this order, each by a one-byte read; `none` when one of them is not readable. -/
def readBytes (m : List Host.Cell) : Nat → Nat → Option (List Byte)
  | _, 0 => some []
  | p, n + 1 =>
    match readByte m p with
    | none => none
    | some b =>
      match readBytes m (p + 1) n with
      | none => none
      | some bytes => some (b :: bytes)

/-- `MemRead(p, n)`: `n` bytes as one little-endian value, the lowest address in bits [7:0] (R51). -/
def memRead (m : List Host.Cell) : Nat → (n : Nat) → Option (BitVec (8 * n))
  | _, 0 => some 0#0
  | p, n + 1 =>
    match readByte m p, memRead m (p + 1) n with
    | some b, some high => some ((high ++ b).cast (Nat.mul_succ 8 n).symm)
    | _, _ => none

/-! ### Registers (10_state.md) -/

/-- `ACC[a]`. -/
def readAcc (s : State) (a : SlotIx) : Word := s.acc.get a

/-- `ACC[a] <- v`. -/
def writeAcc (a : SlotIx) (v : Word) (s : State) : State := { s with acc := s.acc.set a v }

/-- `ACC_VALID[a] <- 1`. -/
def setValid (a : SlotIx) (s : State) : State := { s with accValid := s.accValid.set a true }

/-- `MODE <- m`. -/
def writeMode (m : Mode) (s : State) : State := { s with mode := m }

/-- Whether slot `a` exists, `a < ACC_COUNT` (30_encoding.md R72). -/
def slotExists (s : State) (a : SlotIx) : Bool := decide (a.toNat < s.cfg.accCount)

/-! ### How a command ends (60_exceptions.md R201, R205; 30_encoding.md R78, R79) -/

/-- Complete with status OK. The position in the program advances (10_state.md R31). -/
def complete (result : Option Word) (s : State) : StepResult :=
  .next { s with response := some (.ok result), position := s.position + 1 }

/-- `reject OutOfRange`: no state of the block changes (R205); the command completes (10_state.md R31). -/
def rejectOutOfRange (s : State) : StepResult :=
  .next { s with response := some .outOfRange, position := s.position + 1 }

/-- `raise Fault(cause)`: the block's only trap (R201, R209). FAULT takes the cause, nothing else of the block changes, and the
program does not advance (10_state.md R31). No command returns from it (R210). -/
def raiseFault (c : Cause) (s : State) : StepResult :=
  .next { s with fault := some c, response := some (.fault c) }

/-- Check 1 of R206: a faulted block executes no command and returns the recorded cause (R201, R210). -/
def unlessFaulted (s : State) (k : StepResult) : StepResult :=
  match s.fault with
  | some c => .next { s with response := some (.fault c) }
  | none => k

/-- Checks 1 and 3 of R206, for a command that names a slot (R202). -/
def withSlot (a : SlotIx) (s : State) (k : StepResult) : StepResult :=
  unlessFaulted s (if slotExists s a then k else raiseFault .badSlot s)

/-- Checks 1, 3 and 4 of R206, for a command that uses a live slot (R203). -/
def withLiveSlot (a : SlotIx) (s : State) (k : StepResult) : StepResult :=
  withSlot a s (if s.accValid.get a then k else raiseFault .slotNotInitialised s)

/-- An illegal command word, checks 1 and 2 of R206 (R204). -/
def illegalCommand (s : State) : StepResult := unlessFaulted s (raiseFault .illegalCommand s)

/-! ### The capability selector and the table (41_capability.md, 42_table.md) -/

/-- `BuildTable()` (42_table.md R140). -/
def buildTable (s : State) : State := { s with table := builtTable, tableValid := true }

/-- What detection selects on each `HW_LEVEL`, most capable first (41_capability.md R120, R123). -/
def selectStrategy : HwLevel → Strategy
  | .none => .softwareTable
  | .word32 => .hardwareNarrow
  | .word64 => .hardwareWide

/-- `Detect()` (41_capability.md R120): skipped when MODE is set, else MODE from HW_LEVEL, with the table on the software branch. -/
def detect (s : State) : State :=
  match s.mode with
  | .undetected =>
    match s.cfg.hwLevel with
    | .word64 => writeMode .hardwareWide s
    | .word32 => writeMode .hardwareNarrow s
    | .none => buildTable (writeMode .softwareTable s)
  | .softwareTable => s
  | .hardwareNarrow => s
  | .hardwareWide => s

/-- The strategy MODE designates once detection has run (40_reduction.md R111): MODE = 0 stands for what detection selects. -/
def strategyOf (s : State) : Strategy :=
  match s.mode with
  | .undetected => selectStrategy s.cfg.hwLevel
  | .softwareTable => .softwareTable
  | .hardwareNarrow => .hardwareNarrow
  | .hardwareWide => .hardwareWide

/-- The lazy build before a software-mode fold (42_table.md R142; log entry 12). -/
def lazyBuild (s : State) : State :=
  if s.mode = .softwareTable ∧ s.tableValid = false then buildTable s else s

/-- What every update does before it folds: detection, then the lazy build (60_exceptions.md R206, step 6). -/
def prepare (s : State) : State := lazyBuild (detect s)

/-- Whether a host of this `HW_LEVEL` supports the mode (41_capability.md R123). -/
def supported : Mode → HwLevel → Bool
  | .undetected, _ => true
  | .softwareTable, _ => true
  | .hardwareNarrow, h => h != .none
  | .hardwareWide, h => h == .word64

/-- Fold a chunk into `ACC[a]` by the path MODE selects (43_accumulator.md R160, R165). -/
def foldInto (a : SlotIx) (bytes : List Byte) (s : State) : State :=
  let p := prepare s
  writeAcc a (path p.table (strategyOf p) (readAcc p a) bytes) p

/-- Fold one byte into `ACC[a]` (43_accumulator.md R155). -/
def foldByteInto (a : SlotIx) (b : Byte) (s : State) : State :=
  let p := prepare s
  writeAcc a (byteStep p.table (strategyOf p) (readAcc p a) b) p

/-! ### The command port (10_state.md R31, 20_memory.md R60) -/

/-- What a step finds at the head of the port, with the state that has it taken off. -/
inductive Fetched where
  /-- Nothing is pending: the block waits (70_reset_and_hazards.md R231). -/
  | waiting
  /-- A host agent writes a byte of its memory. -/
  | hostWrite (addr : Nat) (byte : Byte) (s : State)
  /-- A word that matches no row of 30_encoding.md R75. -/
  | illegal (s : State)
  /-- A legal command. -/
  | command (i : Instr) (s : State)
  /-- An item that is no command of 30_encoding.md R70. -/
  | malformed (f : Fault)

/-- Take the oldest item off the port and decode it (30_encoding.md R70, R76). -/
def fetch (s : State) : Fetched :=
  match s.port with
  | [] => .waiting
  | .hostWrite x b :: rest => .hostWrite x b { s with port := rest }
  | .command c :: rest =>
    match decode s.cfg.addrW c with
    | .ok i => .command i { s with port := rest }
    | .error .illegalCommand => .illegal { s with port := rest }
    | .error .missingArguments => .malformed .missingArguments
    | .error .extraArguments => .malformed .extraArguments
    | .error .argumentTooWide => .malformed .argumentTooWide

/-- A host agent's write between two commands: only the byte changes (20_memory.md R60, R65; log entry 11). -/
def applyHostWrite (x : Nat) (b : Byte) (s : State) : StepResult := .next { s with mem := hostWriteByte s.mem x b }

/-- Put an item in front of everything pending. -/
def present (e : PortEvent) (s : State) : State := { s with port := e :: s.port }

end Sys2Proof.Machine
end

