-- ==== Sys2Proof/Machine/Operands.lean ====
section
/-! DEFINITION. The operand forms of the two bulk updates: the bounds check and the region of UPDATE, the region of UPDATE_RAW,
and region admission (43_accumulator.md R160, R165; 20_memory.md R55). The reads each strategy issues for a region
(20_memory.md R56) stand here too. -/

namespace Sys2Proof.Machine

/-- UPDATE's bounds check: `OFF + CNT` exceeds `LEN`, on naturals that do not wrap (43_accumulator.md R160, 00_scope.md R11). -/
def outOfBounds (len off cnt : Nat) : Bool := decide (len < off + cnt)

/-- Whether the bytes at `p, ..., p+n-1` are all readable. -/
def allReadable (m : List Host.Cell) (p n : Nat) : Bool := (readBytes m p n).isSome

/-- `Admitted(p, n)` (20_memory.md R55). -/
def admitted (s : State) (p n : Nat) : Bool :=
  n == 0 || (decide (p + n ≤ 2 ^ s.cfg.addrW.bits) && allReadable s.mem p n)

/-- The bytes of a region, in ascending address order, or nothing when the region is not admitted. An empty region reads no
byte and its address is not examined (20_memory.md R55, R56). -/
def regionBytes (s : State) (p n : Nat) : Option (List Byte) :=
  if admitted s p n then readBytes s.mem p n else none

/-- Where UPDATE's region starts: `BASE + OFF`, without wrap-around (30_encoding.md R73). -/
def updateStart (base off : Nat) : Nat := base + off

/-! ### The reads of a region (20_memory.md R56) -/

/-- The width of one read: 1, 4 or 8 bytes. -/
inductive ReadWidth where
  | byte
  | word32
  | word64
  deriving DecidableEq, Repr

/-- The number of bytes a read covers. -/
def readSize : ReadWidth → Nat
  | .byte => 1
  | .word32 => 4
  | .word64 => 8

/-- One read: its address and its width. -/
structure Access where
  addr : Nat
  width : ReadWidth
  deriving DecidableEq, Repr

/-- `k` reads of one width from `p` on, one after the other. -/
def readRun (w : ReadWidth) : Nat → Nat → List Access
  | _, 0 => []
  | p, k + 1 => { addr := p, width := w } :: readRun w (p + readSize w) k

/-- The reads a strategy issues for `n` bytes at `p`, in order (20_memory.md R56). They cannot be observed (log entry 15). -/
def accessPlan : Strategy → Nat → Nat → List Access
  | .softwareTable, p, n => readRun .byte p n
  | .hardwareNarrow, p, n => readRun .word32 p (n / 4) ++ readRun .byte (p + 4 * (n / 4)) (n % 4)
  | .hardwareWide, p, n => readRun .word64 p (n / 8) ++ readRun .byte (p + 8 * (n / 8)) (n % 8)

/-- Issue one read and fold what it reads: a byte by the strategy's byte step, a word by its word fold (40_reduction.md R103-R106). -/
def foldAccess (table : RegFile Word) (st : Strategy) (m : List Host.Cell) (r : Word) (x : Access) : Option Word :=
  match x.width with
  | .byte => (memRead m x.addr 1).map (byteStep table st r)
  | .word32 => (memRead m x.addr 4).map (hwW32 r)
  | .word64 => (memRead m x.addr 8).map (hwW64 r)

/-- Issue reads one after the other and fold each as it comes. -/
def foldAccesses (table : RegFile Word) (st : Strategy) (m : List Host.Cell) : Word → List Access → Option Word
  | r, [] => some r
  | r, x :: rest =>
    match foldAccess table st m r x with
    | none => none
    | some v => foldAccesses table st m v rest

end Sys2Proof.Machine
end

