-- ==== Sys2Proof/Machine/Accumulator.lean ====
section
/-! DEFINITION. The accumulator commands (43_accumulator.md): ACC_NEW, UPDATE_ONE, UPDATE, UPDATE_RAW, FINALIZE. -/

namespace Sys2Proof.Machine

/-- ACC_NEW (R150): detection, then a fresh accumulator in slot `a`, live or not (R151). -/
def execAccNew (a : SlotIx) (s : State) : StepResult :=
  withSlot a s (complete none (setValid a (writeAcc a initReg (detect s))))

/-- UPDATE_ONE (R155). -/
def execUpdateOne (a : SlotIx) (b : Byte) (s : State) : StepResult :=
  withLiveSlot a s (complete none (foldByteInto a b s))

/-- UPDATE (R160): the bounds first, then the region, then the fold. -/
def execUpdate (a : SlotIx) (base len off cnt : Nat) (s : State) : StepResult :=
  withLiveSlot a s
    (if outOfBounds len off cnt then rejectOutOfRange s
     else
      match regionBytes s (updateStart base off) cnt with
      | none => raiseFault .memoryFault s
      | some bytes => complete none (foldInto a bytes s))

/-- UPDATE_RAW (R165): the region, then the fold. -/
def execUpdateRaw (a : SlotIx) (ptr cnt : Nat) (s : State) : StepResult :=
  withLiveSlot a s
    (match regionBytes s ptr cnt with
     | none => raiseFault .memoryFault s
     | some bytes => complete none (foldInto a bytes s))

/-- FINALIZE (R170): the complement of the register; nothing of the block is written and MODE is not read. -/
def execFinalize (a : SlotIx) (s : State) : StepResult :=
  withLiveSlot a s (complete (some (fin (readAcc s a))) s)

end Sys2Proof.Machine
end

