-- ==== Sys2Proof/Machine/Capability.lean ====
section
/-! DEFINITION. The mode commands (41_capability.md): SET_MODE, GET_MODE. -/

namespace Sys2Proof.Machine

/-- SET_MODE (R124): only MODE is written; no table is built, and `undetected` is legal (R126). -/
def execSetMode (m : Mode) (s : State) : StepResult :=
  unlessFaulted s
    (if supported m s.cfg.hwLevel then complete none (writeMode m s) else raiseFault .modeUnsupported s)

/-- GET_MODE (R127): MODE, zero-extended; it runs no detection. -/
def execGetMode (s : State) : StepResult :=
  unlessFaulted s (complete (some ((modeBits s.mode).setWidth 32)) s)

end Sys2Proof.Machine
end

