-- ==== Sys2Proof/Machine/Table.lean ====
section
/-! DEFINITION. The table commands (42_table.md): BUILD_TABLE, TABLE_READ. -/

namespace Sys2Proof.Machine

/-- BUILD_TABLE (R141): legal in every MODE, which it neither reads nor writes. -/
def execBuildTable (s : State) : StepResult := unlessFaulted s (complete none (buildTable s))

/-- TABLE_READ (R143): it never builds the table. -/
def execTableRead (i : Byte) (s : State) : StepResult :=
  unlessFaulted s (if s.tableValid then complete (some (s.table.get i)) s else raiseFault .tableNotBuilt s)

end Sys2Proof.Machine
end

