-- ==== Sys2Proof/Machine/Dispatch.lean ====
section
/-! DEFINITION. Which meaning each command has: one arm per constructor (30_encoding.md R74). -/

namespace Sys2Proof.Machine

def exec (i : Instr) (s : State) : Host.Outcome State Fault Refusal :=
  match i with
  | .accNew a => Sys2Proof.Machine.execAccNew a s
  | .setMode m => Sys2Proof.Machine.execSetMode m s
  | .buildTable => Sys2Proof.Machine.execBuildTable s
  | .update a base len off cnt => Sys2Proof.Machine.execUpdate a base len off cnt s
  | .updateOne a b => Sys2Proof.Machine.execUpdateOne a b s
  | .updateRaw a ptr cnt => Sys2Proof.Machine.execUpdateRaw a ptr cnt s
  | .finalize a => Sys2Proof.Machine.execFinalize a s
  | .getMode => Sys2Proof.Machine.execGetMode s
  | .tableRead idx => Sys2Proof.Machine.execTableRead idx s

end Sys2Proof.Machine
end

