-- ==== Sys2Proof/Machine/Step.lean ====
section
/-! DEFINITION. One step: the oldest item on the command port, in the total order of 20_memory.md R60. -/

namespace Sys2Proof.Machine

/-- One step (00_scope.md R14, R15). With nothing pending the block waits and nothing changes (70_reset_and_hazards.md R231). -/
def step (s : State) : Host.Outcome State Fault Refusal :=
  match fetch s with
  | .waiting => .next s
  | .hostWrite x b t => applyHostWrite x b t
  | .illegal t => illegalCommand t
  | .command i t => exec i t
  | .malformed f => .fault f

/-- The state with the instruction numbered `w` in front of everything pending on the port, so that the next step takes it. -/
def State.withFetchWord (s : State) (nbits w : Nat) : State := present (.command (numberedCommand s.cfg.addrW nbits w)) s

end Sys2Proof.Machine
end

