-- ==== Sys2Proof/Machine/Assembler.lean ====
section
/-! DEFINITION. The assembler syntax (30_encoding.md R82) and the pseudo-instructions (R83): from the text of a program to the
commands a host presents. -/

namespace Sys2Proof.Machine

/-- A blank between the parts of a line. -/
def isBlank (c : Char) : Bool := c == ' ' || c == '\t' || c == '\r'

/-- `;` starts a comment (R82). -/
def stripComment (line : List Char) : List Char := line.takeWhile (fun c => c != ';')

/-- A text without the blanks around it. -/
def trimBlanks (t : List Char) : List Char := ((t.dropWhile isBlank).reverse.dropWhile isBlank).reverse

/-- Cut a text at every `sep`. -/
def cutAt (sep : Char) : List Char → List (List Char)
  | [] => [[]]
  | c :: rest =>
    if c = sep then [] :: cutAt sep rest
    else
      match cutAt sep rest with
      | [] => [[c]]
      | part :: more => (c :: part) :: more

/-- The value of a digit in a base up to 16. -/
def digitValue (base : Nat) (c : Char) : Option Nat :=
  let n := c.toNat
  let v :=
    if 48 ≤ n ∧ n ≤ 57 then n - 48 else if 97 ≤ n ∧ n ≤ 102 then n - 87 else if 65 ≤ n ∧ n ≤ 70 then n - 55 else base
  if v < base then some v else none

/-- Digits in a base, most significant first, after the value read so far. -/
def digitsValue (base : Nat) : Nat → List Char → Option Nat
  | acc, [] => some acc
  | acc, c :: rest =>
    match digitValue base c with
    | none => none
    | some v => digitsValue base (acc * base + v) rest

/-- A number, decimal or `0x` hexadecimal (R82). -/
def parseNumber (t : List Char) : Option Nat :=
  match t with
  | [] => none
  | ['0', 'x'] => none
  | '0' :: 'x' :: hex => digitsValue 16 0 hex
  | digits => digitsValue 10 0 digits

/-- A number that fits 8 bits. -/
def parseByte (t : List Char) : Option (BitVec 8) :=
  match parseNumber t with
  | none => none
  | some n => if n < 256 then some (BitVec.ofNat 8 n) else none

/-- A slot `a<n>`, n in 0..255 (R82). -/
def parseSlot (t : List Char) : Option SlotIx :=
  match t with
  | 'a' :: digits => parseByte digits
  | _ => none

/-- The name of a mode (R82). -/
def parseMode (t : List Char) : Option Mode :=
  if t = "undetected".toList then some .undetected
  else if t = "software".toList then some .softwareTable
  else if t = "narrow".toList then some .hardwareNarrow
  else if t = "wide".toList then some .hardwareWide
  else none

/-- The operands after the mnemonic, cut at the commas. -/
def parseOperands (t : List Char) : List (List Char) :=
  if trimBlanks t = [] then [] else (cutAt ',' t).map trimBlanks

/-- A line's mnemonic and operands as a command (R82, R83); nothing when it is neither. -/
def parseCommand (name : List Char) (ops : List (List Char)) : Option Instr :=
  if name = "acc.new".toList then
    match ops with
    | [a] => (parseSlot a).map .accNew
    | _ => none
  else if name = "mode.set".toList then
    match ops with
    | [m] => (parseMode m).map .setMode
    | _ => none
  else if name = "table.build".toList then
    match ops with
    | [] => some .buildTable
    | _ => none
  else if name = "crc.update".toList then
    match ops with
    | [a, base, len, off, cnt] => do
      return .update (← parseSlot a) (← parseNumber base) (← parseNumber len) (← parseNumber off) (← parseNumber cnt)
    | _ => none
  else if name = "crc.byte".toList then
    match ops with
    | [a, b] => do return .updateOne (← parseSlot a) (← parseByte b)
    | _ => none
  else if name = "crc.raw".toList then
    match ops with
    | [a, ptr, cnt] => do return .updateRaw (← parseSlot a) (← parseNumber ptr) (← parseNumber cnt)
    | _ => none
  else if name = "crc.final".toList then
    match ops with
    | [a] => (parseSlot a).map .finalize
    | _ => none
  else if name = "mode.get".toList then
    match ops with
    | [] => some .getMode
    | _ => none
  else if name = "table.read".toList then
    match ops with
    | [i] => (parseByte i).map .tableRead
    | _ => none
  else if name = "crc.all".toList then
    match ops with
    | [a, base, len] => do return pseudoCrcAll (← parseSlot a) (← parseNumber base) (← parseNumber len)
    | _ => none
  else if name = "mode.redetect".toList then
    match ops with
    | [] => some pseudoRedetect
    | _ => none
  else none

/-- What one line holds: nothing, a command, or no line of the syntax. -/
inductive AsmLine where
  | empty
  | command (i : Instr)
  | error
  deriving DecidableEq, Repr

/-- One line (R82). -/
def parseLine (line : List Char) : AsmLine :=
  let t := trimBlanks (stripComment line)
  if t = [] then .empty
  else
    let name := t.takeWhile (fun c => !isBlank c)
    match parseCommand name (parseOperands (t.drop name.length)) with
    | none => .error
    | some i => .command i

/-- The commands of a list of lines, one command a line, on a host of a given `ADDR_W` (R70, R82). -/
def assembleLines (w : AddrWidth) : List (List Char) → Option (List Command)
  | [] => some []
  | line :: rest =>
    match parseLine line with
    | .empty => assembleLines w rest
    | .error => none
    | .command i => if i.wf w then (assembleLines w rest).map (fun cs => encode i :: cs) else none

/-- The commands of a program's text (R82). -/
def assemble (w : AddrWidth) (text : String) : Option (List Command) := assembleLines w (cutAt '\n' text.toList)

end Sys2Proof.Machine
end

