-- ==== Sys2Proof/Machine/Flags.lean ====
section
/-! DEFINITION. The block has no flags and no condition codes (10_state.md R32): the outcome of a command is its response. Here
are the numbers the spec gives the outcome: STATUS and RESULT (30_encoding.md R78-R80), CAUSE and FAULT (60_exceptions.md R200). -/

namespace Sys2Proof.Machine

/-- STATUS, 2 bits; 3 is never returned (30_encoding.md R80). -/
def statusCode : Response → BitVec 2
  | .ok _ => 0
  | .outOfRange => 1
  | .fault _ => 2

/-- RESULT, where the response has one (30_encoding.md R79). -/
def resultOf : Response → Option Word
  | .ok r => r
  | .outOfRange => none
  | .fault _ => none

/-- The 4-bit code of a fault cause (60_exceptions.md R200). -/
def causeCode : Cause → BitVec 4
  | .illegalCommand => 1
  | .badSlot => 2
  | .slotNotInitialised => 3
  | .modeUnsupported => 4
  | .memoryFault => 5
  | .tableNotBuilt => 6

/-- The 4 bits of the FAULT register, 0 for NONE (10_state.md R34, 60_exceptions.md R200). -/
def faultCode : Option Cause → BitVec 4
  | none => 0
  | some c => causeCode c

/-- CAUSE, meaningful only beside STATUS = FAULT (30_encoding.md R78). -/
def causeOf : Response → Option (BitVec 4)
  | .ok _ => none
  | .outOfRange => none
  | .fault c => some (causeCode c)

end Sys2Proof.Machine
end

