-- ==== Sys2Proof/Safety.lean ====
section
/-! DEFINITION. The terms claims are stated in: the invariant of the machine, what a live slot and a region are, what a command
leaves unchanged, which parts of a state a command can see, and an unfaulted run. -/

namespace Sys2Proof.Machine

/-- Slot `a` exists and holds a live accumulator (10_state.md R21). -/
abbrev State.Live (s : State) (a : SlotIx) : Prop := a.toNat < s.cfg.accCount ∧ s.accValid.get a = true

/-- A built table holds `T` (10_state.md R27). -/
abbrev State.TableOk (s : State) : Prop := s.tableValid = true → ∀ i : Byte, s.table.get i = tableFn i

/-- Only slots that exist are live (10_state.md R20, R21). -/
abbrev State.SlotsOk (s : State) : Prop := ∀ a : SlotIx, s.accValid.get a = true → a.toNat < s.cfg.accCount

/-- MODE is one the host's HW_LEVEL supports (41_capability.md R123). -/
abbrev State.ModeOk (s : State) : Prop := supported s.mode s.cfg.hwLevel = true

/-- The invariant of the machine: a legal configuration, memory in canonical form, a built table that holds `T`, live slots that
exist, and a supported MODE. -/
structure State.Inv (s : State) : Prop where
  cfgLegal : s.cfg.Legal
  memWf : Memory.wf s.mem = true
  tableOk : s.TableOk
  slotsOk : s.SlotsOk
  modeOk : s.ModeOk

/-- MODE after detection (41_capability.md R120): itself when set, else the mode R123 marks for HW_LEVEL. -/
def State.detectedMode (s : State) : Mode :=
  if s.mode = .undetected then
    match s.cfg.hwLevel with
    | .none => .softwareTable
    | .word32 => .hardwareNarrow
    | .word64 => .hardwareWide
  else s.mode

/-- The `bytes.length` bytes of host memory from `p` on are readable, end at or below `2^ADDR_W`, and are `bytes`; an empty region
asks nothing of `p` (20_memory.md R51, R55). -/
def State.Region (s : State) (p : Nat) (bytes : List Byte) : Prop :=
  bytes = [] ∨
    (p + bytes.length ≤ 2 ^ s.cfg.addrW.bits ∧ ∀ (k : Nat) (h : k < bytes.length), readByte s.mem (p + k) = some bytes[k])

/-- What no command writes: the configuration, host memory, said also byte by byte (20_memory.md R53), and the port. -/
abbrev HostSame (s t : State) : Prop :=
  t.cfg = s.cfg ∧ t.mem = s.mem ∧ (∀ x : Nat, readByte t.mem x = readByte s.mem x) ∧ t.port = s.port

/-- The slots other than `a` are as before, register and valid bit (10_state.md R22). -/
abbrev OtherSlotsSame (a : SlotIx) (s t : State) : Prop :=
  ∀ b : SlotIx, b ≠ a → t.acc.get b = s.acc.get b ∧ t.accValid.get b = s.accValid.get b

/-- The command completed with status OK and this RESULT (30_encoding.md R78-R80), and the program advanced (10_state.md R31). -/
abbrev CompletedOk (result : Option Word) (s t : State) : Prop :=
  t.fault = none ∧ t.response = some (.ok result) ∧ t.position = s.position + 1

/-- What an update of slot `a` that completes leaves, its register apart (43_accumulator.md R155, R160, R165): MODE as detection
leaves it, the table built when MODE is SoftwareTable and otherwise as it was, the valid bits, the other slots and the host's
side as they were, status OK without a RESULT. -/
structure UpdateFrame (a : SlotIx) (s t : State) : Prop where
  mode : t.mode = s.detectedMode
  tableValid : t.tableValid = (s.tableValid || decide (s.detectedMode = .softwareTable))
  tableBuilt : t.tableValid = true → ∀ i : Byte, t.table.get i = tableFn i
  tableKept : t.tableValid = s.tableValid → ∀ i : Byte, t.table.get i = s.table.get i
  otherSlots : OtherSlotsSame a s t
  valid : t.accValid.get a = s.accValid.get a
  host : HostSame s t
  done : CompletedOk none s t

/-- The slot a command names (30_encoding.md R74). -/
def slotOf : Instr → Option SlotIx
  | .accNew a => some a
  | .setMode _ => none
  | .buildTable => none
  | .update a _ _ _ _ => some a
  | .updateOne a _ => some a
  | .updateRaw a _ _ => some a
  | .finalize a => some a
  | .getMode => none
  | .tableRead _ => none

/-- The commands that use a slot and need it live (60_exceptions.md R203). -/
def needsLive : Instr → Bool
  | .accNew _ => false
  | .setMode _ => false
  | .buildTable => false
  | .update _ _ _ _ _ => true
  | .updateOne _ _ => true
  | .updateRaw _ _ _ => true
  | .finalize _ => true
  | .getMode => false
  | .tableRead _ => false

/-- The commands that fold bytes into a slot. -/
def isUpdate : Instr → Bool
  | .accNew _ => false
  | .setMode _ => false
  | .buildTable => false
  | .update _ _ _ _ _ => true
  | .updateOne _ _ => true
  | .updateRaw _ _ _ => true
  | .finalize _ => false
  | .getMode => false
  | .tableRead _ => false

/-- The commands that can trigger detection or a table build (41_capability.md R121, 42_table.md R141, R142). -/
def initialises : Instr → Bool
  | .accNew _ => true
  | .setMode _ => false
  | .buildTable => true
  | .update _ _ _ _ _ => true
  | .updateOne _ _ => true
  | .updateRaw _ _ _ => true
  | .finalize _ => false
  | .getMode => false
  | .tableRead _ => false

/-- The commands whose OK response has a RESULT (30_encoding.md R79). -/
def hasResult : Instr → Bool
  | .accNew _ => false
  | .setMode _ => false
  | .buildTable => false
  | .update _ _ _ _ _ => false
  | .updateOne _ _ => false
  | .updateRaw _ _ _ => false
  | .finalize _ => true
  | .getMode => true
  | .tableRead _ => true

/-- Two states that differ at most where the spec says there is no value: TABLE while it is not built (10_state.md R27) and the
registers of slots that are not live (R21). -/
structure SameValues (s t : State) : Prop where
  mode : t.mode = s.mode
  tableValid : t.tableValid = s.tableValid
  table : s.tableValid = true → t.table = s.table
  accValid : t.accValid = s.accValid
  acc : ∀ a : SlotIx, s.accValid.get a = true → t.acc.get a = s.acc.get a
  fault : t.fault = s.fault
  cfg : t.cfg = s.cfg
  mem : t.mem = s.mem
  port : t.port = s.port
  response : t.response = s.response
  position : t.position = s.position

/-- Two states that differ at most in slots other than `a`. -/
structure SameBut (a : SlotIx) (s t : State) : Prop where
  mode : t.mode = s.mode
  tableValid : t.tableValid = s.tableValid
  table : t.table = s.table
  accValid : t.accValid.get a = s.accValid.get a
  acc : t.acc.get a = s.acc.get a
  fault : t.fault = s.fault
  cfg : t.cfg = s.cfg
  mem : t.mem = s.mem
  port : t.port = s.port
  response : t.response = s.response
  position : t.position = s.position

/-- Command `i` is an update of slot `a` that passes its own checks and folds `bytes` (43_accumulator.md R155, R160, R165): the
bounds hold and the region is admitted and holds those bytes. -/
def State.Folds (s : State) (a : SlotIx) (i : Instr) (bytes : List Byte) : Prop :=
  match i with
  | .accNew _ => False
  | .setMode _ => False
  | .buildTable => False
  | .update b base len off cnt => b = a ∧ off + cnt ≤ len ∧ bytes.length = cnt ∧ s.Region (base + off) bytes
  | .updateOne b x => b = a ∧ bytes = [x]
  | .updateRaw b ptr cnt => b = a ∧ bytes.length = cnt ∧ s.Region ptr bytes
  | .finalize _ => False
  | .getMode => False
  | .tableRead _ => False

/-- Commands executed one after the other (10_state.md R31). -/
def execAll : List Instr → State → StepResult
  | [], s => .next s
  | i :: rest, s =>
    match exec i s with
    | .next t => execAll rest t
    | .fault f => .fault f
    | .refused r => .refused r

/-- The CRC32C of a byte sequence (40_reduction.md R114). -/
def crc32c (bytes : List Byte) : Word := fin (fold initReg bytes)

/-- `k` steps of the machine from `s` end in `t`. -/
def RunsTo (k : Nat) (s t : State) : Prop := Host.Core.run core k s = .next t

/-- A run without a fault: what a claim about a program takes as its premise (60_exceptions.md R201). FAULT is sticky, so its last
state tells. -/
def SafeRun (k : Nat) (s : State) : Prop := ∃ t : State, RunsTo k s t ∧ t.fault = none

end Sys2Proof.Machine
end

