-- ==== Sys2Proof/Certificates/Slice0/Obligations.lean ====
section
/-! DEFINITION. The statements for the provers, each from the numbered rules of spec/. -/

open Sys2Proof Sys2Proof.Machine

/-! ### Encoding (30_encoding.md) -/

/-- Words written out from the opcode map (R74) and the assembler's table (R82) decode to the command they stand for, and a word
with a nonzero must-be-0 field does not. -/
def Obligations.WordsOfTheSpecDecode : Prop :=
  decode .w64 { word := 0x10000003, args := [] } = .ok (.accNew 3) ∧
  decode .w64 { word := 0x28000000, args := [] } = .ok (.setMode .hardwareNarrow) ∧
  decode .w64 { word := 0x30000000, args := [] } = .ok .buildTable ∧
  decode .w64 { word := 0x40000001, args := [0x2000, 9, 4, 5] } = .ok (.update 1 0x2000 9 4 5) ∧
  decode .w64 { word := 0x50006100, args := [] } = .ok (.updateOne 0 0x61) ∧
  decode .w64 { word := 0x60000001, args := [0x2001, 8] } = .ok (.updateRaw 1 0x2001 8) ∧
  decode .w64 { word := 0x70000002, args := [] } = .ok (.finalize 2) ∧
  decode .w64 { word := 0x80000000, args := [] } = .ok .getMode ∧
  decode .w64 { word := 0x90008000, args := [] } = .ok (.tableRead 0x80) ∧
  decode .w64 { word := 0x10010000, args := [] } = .error .illegalCommand ∧
  decode .w64 { word := 0xA0000000, args := [] } = .error .illegalCommand

/-- The assembler's table (R82) and the two pseudo-instructions (R83), on one line each. -/
def Obligations.AssemblerLinesEncode : Prop :=
  assemble .w64 "acc.new a3\nmode.set narrow\ntable.build ; build" =
    some [{ word := 0x10000003, args := [] }, { word := 0x28000000, args := [] }, { word := 0x30000000, args := [] }] ∧
  assemble .w64 "crc.update a1, 0x2000, 9, 4, 5\ncrc.byte a0, 0x61\ncrc.raw a1, 0x2001, 8" =
    some [{ word := 0x40000001, args := [0x2000, 9, 4, 5] }, { word := 0x50006100, args := [] },
      { word := 0x60000001, args := [0x2001, 8] }] ∧
  assemble .w64 "crc.final a2\nmode.get\ntable.read 0x80" =
    some [{ word := 0x70000002, args := [] }, { word := 0x80000000, args := [] }, { word := 0x90008000, args := [] }] ∧
  assemble .w64 "crc.all a0, 0x1000, 76\nmode.redetect" =
    some [{ word := 0x40000000, args := [0x1000, 76, 0, 76] }, { word := 0x20000000, args := [] }]

/-- Decoding the encoding of a well-formed command gives it back, for every command, every operand value the encoding admits and
both values of ADDR_W (R71-R74). -/
def Obligations.DecodeOfEncode : Prop :=
  ∀ (w : AddrWidth) (i : Instr), i.wf w = true → decode w (encode i) = .ok i

/-- Encoding what was decoded gives the words back, and what was decoded is well formed: each command has one meaning, and no bit
of it is dropped (R71-R74). -/
def Obligations.EncodeOfDecode : Prop :=
  ∀ (w : AddrWidth) (c : Command) (i : Instr), decode w c = .ok i → encode i = c ∧ i.wf w = true

/-- R75: a word is command C exactly when `(x & mask_C) = match_C`, and it matches at most one row. -/
def Obligations.MatchAndMaskRows : Prop :=
  (∀ (w : AddrWidth) (c : Command) (i : Instr) (r : OpcodeRow), decode w c = .ok i → r ∈ opcodeRows →
    (rowMatches r c.word = true ↔ r.mnemonic = mnemonicOf i)) ∧
  (∀ (x : Word) (r q : OpcodeRow), r ∈ opcodeRows → q ∈ opcodeRows → rowMatches r x = true → rowMatches q x = true → r = q)

/-- R76, R204: a word is illegal exactly when its OP is 0x0 or 0xA-0xF or a field its opcode requires to be 0 is nonzero, which is
exactly when it matches no row of R75; decoding does not look at its argument words; executing it raises ILLEGAL_COMMAND, and
nothing else of the block changes. Every other word is legal: with the right argument words it decodes. That the item of an
illegal word leaves the port whole, whatever argument words it holds, is the model's choice (log entry 7; R76 says only that no
argument words are consumed), and that a step takes it off the port at all is log entries 6 and 10. -/
def Obligations.IllegalCommandWords : Prop :=
  (∀ (w : AddrWidth) (c : Command), decode w c = .error .illegalCommand ↔ ∀ r ∈ opcodeRows, rowMatches r c.word = false) ∧
  (∀ (w : AddrWidth) (c : Command), decode w c = .error .illegalCommand ↔
    (opField c.word = 0x0 ∨ 0xA ≤ (opField c.word).toNat ∨ zField c.word ≠ 0 ∨
      (mField c.word ≠ 0 ∧ opField c.word ≠ 0x2) ∨
      (immField c.word ≠ 0 ∧ opField c.word ≠ 0x5 ∧ opField c.word ≠ 0x9) ∨
      (accField c.word ≠ 0 ∧ (opField c.word = 0x2 ∨ opField c.word = 0x3 ∨ opField c.word = 0x8 ∨ opField c.word = 0x9)))) ∧
  (∀ (w : AddrWidth) (c : Command), decode w c ≠ .error .illegalCommand →
    ∃ (args : List ArgWord) (i : Instr), decode w { word := c.word, args := args } = .ok i) ∧
  (∀ (s : State) (c : Command) (rest : List PortEvent), s.fault = none → s.port = .command c :: rest →
    decode s.cfg.addrW c = .error .illegalCommand →
    step s = .next { s with port := rest, fault := some .illegalCommand, response := some (.fault .illegalCommand) })

/-- R70, R81: a legal word decodes exactly when as many argument words follow as its opcode takes (UPDATE 4, UPDATE_RAW 2, every
other opcode 0) and each fits ADDR_W. -/
def Obligations.ArgumentWordsOfAnOpcode : Prop :=
  ∀ (w : AddrWidth) (c : Command), legalWord c.word = true →
    ((∃ i : Instr, decode w c = .ok i) ↔
      (c.args.length = (if opField c.word = 0x4 then 4 else if opField c.word = 0x6 then 2 else 0) ∧
        ∀ x ∈ c.args, x.toNat < 2 ^ w.bits))

/-! ### The reduction datapath (40_reduction.md) -/

/-- R100, R101: the bit step, its corner cases and worked example, and `T(i)` as eight bit steps from the byte value, with its
worked example. -/
def Obligations.BitStepValues : Prop :=
  (∀ r : Word, bitStep r = if r &&& 1 = 1 then (r >>> 1) ^^^ 0x82F63B78 else r >>> 1) ∧
  bitStep 0 = 0 ∧ bitStep 1 = 0x82F63B78 ∧ bitStep 2 = 1 ∧ bitStep 0xFFFFFFFF = 0xFD09C487 ∧
  (∀ i : Byte, tableFn i =
    bitStep (bitStep (bitStep (bitStep (bitStep (bitStep (bitStep (bitStep (i.setWidth 32))))))))) ∧
  tableFn 0x01 = 0xF26B8303

/-- R102: the values of the table function, and its linearity. -/
def Obligations.TableFunctionValues : Prop :=
  tableFn 0 = 0x00000000 ∧ tableFn 0x80 = 0x82F63B78 ∧ tableFn 0x01 = 0xF26B8303 ∧ tableFn 0xFF = 0xAD7D5351 ∧
  ∀ i j : Byte, tableFn (i ^^^ j) = tableFn i ^^^ tableFn j

/-- R103-R106: the byte step through a built table, the single-byte instruction and the word folds are the canonical byte step,
once per byte from the least significant one, and have the rules' equal forms; with the rules' corner cases and worked examples. -/
def Obligations.WordFoldsAreByteSteps : Prop :=
  (∀ (table : RegFile Word) (r : Word) (b : Byte), (∀ i : Byte, table.get i = tableFn i) →
    tableByte table r b = (r >>> 8) ^^^ tableFn ((r &&& 0xFF).setWidth 8 ^^^ b) ∧ tableByte table r b = swByte r b) ∧
  (∀ r : Word, swByte r (r.extractLsb' 0 8) = r >>> 8) ∧
  swByte 0 0 = 0 ∧ swByte 0xFFFFFFFF 0xFF = 0x00FFFFFF ∧ swByte 0xFFFFFFFF 0x61 = 0x3E2FBCCF ∧
  (∀ (r : Word) (b : Byte), hwByte r b = swByte r b ∧ hwByte r b = bitSteps 8 (r ^^^ b.setWidth 32)) ∧
  hwByte 0 0x80 = 0x82F63B78 ∧
  (∀ r w : Word, hwW32 r w = bitSteps 32 (r ^^^ w)) ∧
  (∀ r w : Word, hwW32 r w =
    swByte (swByte (swByte (swByte r (w.extractLsb' 0 8)) (w.extractLsb' 8 8)) (w.extractLsb' 16 8)) (w.extractLsb' 24 8)) ∧
  (∀ r : Word, hwW32 r r = 0) ∧ hwW32 0 1 = 0xDD45AAB8 ∧ hwW32 0xFFFFFFFF 0x64636261 = 0x6D37F5CE ∧
  (∀ (r : Word) (w : BitVec 64), hwW64 r w = hwW32 (hwW32 r (w.extractLsb' 0 32)) (w.extractLsb' 32 32) ∧ hwW64 r w =
    fold r [w.extractLsb' 0 8, w.extractLsb' 8 8, w.extractLsb' 16 8, w.extractLsb' 24 8,
      w.extractLsb' 32 8, w.extractLsb' 40 8, w.extractLsb' 48 8, w.extractLsb' 56 8]) ∧
  hwW64 0 0 = 0 ∧ hwW64 0 1 = 0x493C7D27 ∧ hwW64 0xFFFFFFFF 0x6867666564636261 = 0xF56BDE48

/-- R113: the bit step is linear, eight bit steps shift out a zero byte, and the bit-serial forms are the byte step and the
32-bit word fold of four byte steps. -/
def Obligations.BitSerialForms : Prop :=
  (∀ x y : Word, bitStep (x ^^^ y) = bitStep x ^^^ bitStep y) ∧
  (∀ v : Word, v.extractLsb' 0 8 = 0 → bitSteps 8 v = v >>> 8) ∧
  (∀ (r : Word) (b : Byte),
    bitSteps 8 (r ^^^ b.setWidth 32) = bitSteps 8 (r &&& 0xFFFFFF00) ^^^ bitSteps 8 (((r &&& 0xFF) ^^^ b.setWidth 32)) ∧
    bitSteps 8 (r ^^^ b.setWidth 32) = swByte r b) ∧
  (∀ r w : Word, bitSteps 32 (r ^^^ w) = hwW32 r w ∧ bitSteps 32 (r ^^^ w) =
    swByte (swByte (swByte (swByte r (w.extractLsb' 0 8)) (w.extractLsb' 8 8)) (w.extractLsb' 16 8)) (w.extractLsb' 24 8))

/-- R107: the reference fold, and that it splits over concatenation. -/
def Obligations.FoldSplits : Prop :=
  (∀ r : Word, fold r [] = r) ∧
  (∀ (r : Word) (b : Byte) (bytes : List Byte), fold r (b :: bytes) = fold (swByte r b) bytes) ∧
  (∀ (r : Word) (b1 b2 : List Byte), fold r (b1 ++ b2) = fold (fold r b1) b2)

/-- R109, R110, R243: a span shorter than the word width skips the word loop and goes byte by byte through `HwByte`; a longer one
folds its first word, little-endian, and goes on with the rest. -/
def Obligations.WordLoopsOfTheHardwarePaths : Prop :=
  (∀ (r : Word) (bytes : List Byte), bytes.length < 4 → pathN r bytes = bytes.foldl hwByte r) ∧
  (∀ (r : Word) (b0 b1 b2 b3 : Byte) (rest : List Byte),
    ∃ w : Word, w.extractLsb' 0 8 = b0 ∧ w.extractLsb' 8 8 = b1 ∧ w.extractLsb' 16 8 = b2 ∧ w.extractLsb' 24 8 = b3 ∧
      pathN r (b0 :: b1 :: b2 :: b3 :: rest) = pathN (hwW32 r w) rest) ∧
  (∀ (r : Word) (bytes : List Byte), bytes.length < 8 → pathW r bytes = bytes.foldl hwByte r) ∧
  (∀ (r : Word) (b0 b1 b2 b3 b4 b5 b6 b7 : Byte) (rest : List Byte),
    ∃ w : BitVec 64, w.extractLsb' 0 8 = b0 ∧ w.extractLsb' 8 8 = b1 ∧ w.extractLsb' 16 8 = b2 ∧ w.extractLsb' 24 8 = b3 ∧
      w.extractLsb' 32 8 = b4 ∧ w.extractLsb' 40 8 = b5 ∧ w.extractLsb' 48 8 = b6 ∧ w.extractLsb' 56 8 = b7 ∧
      pathW r (b0 :: b1 :: b2 :: b3 :: b4 :: b5 :: b6 :: b7 :: rest) = pathW (hwW64 r w) rest)

/-- R112: with a table that holds `T`, every path is the reference fold; so any split of the bytes into chunks, each folded by any
strategy, and any number of single-byte steps, give the same register. -/
def Obligations.PathsAgreeWithFold : Prop :=
  ∀ table : RegFile Word, (∀ i : Byte, table.get i = tableFn i) →
    (∀ (m : Strategy) (r : Word) (bytes : List Byte), path table m r bytes = fold r bytes) ∧
    (∀ (r : Word) (chunks : List (Strategy × List Byte)),
      chunks.foldl (fun v c => path table c.1 v c.2) r = fold r (chunks.flatMap (fun c => c.2))) ∧
    (∀ (r : Word) (steps : List (Strategy × Byte)),
      steps.foldl (fun v c => byteStep table c.1 v c.2) r = fold r (steps.map (fun c => c.2)))

/-- R114: the finalize transform, its corner cases and worked example, and the checksum it gives. -/
def Obligations.FinalizeTransform : Prop :=
  (∀ r : Word, fin r = ~~~r) ∧ (∀ r : Word, fin (fin r) = r) ∧ fin 0xFFFFFFFF = 0x00000000 ∧ fin 0x1CF96D7C = 0xE3069283 ∧
  (∀ bytes : List Byte, crc32c bytes = ~~~(fold 0xFFFFFFFF bytes)) ∧
  crc32c [0x31, 0x32, 0x33, 0x34, 0x35, 0x36, 0x37, 0x38, 0x39] = 0xE3069283

/-! ### Host memory (20_memory.md) -/

/-- R51: `MemRead(p, n)` for n in 1, 4, 8 has the byte at address `p + k` in bits [8k+7:8k]; where a byte of the region is not
readable it is not defined. -/
def Obligations.MemReadIsLittleEndian : Prop :=
  (∀ (m : List Host.Cell) (p n : Nat), n = 1 ∨ n = 4 ∨ n = 8 → (∀ k : Nat, k < n → readable m (p + k) = true) →
    ∃ v : BitVec (8 * n), memRead m p n = some v ∧ ∀ k : Nat, k < n → readByte m (p + k) = some (v.extractLsb' (8 * k) 8)) ∧
  (∀ (m : List Host.Cell) (p n k : Nat), n = 1 ∨ n = 4 ∨ n = 8 → k < n → readable m (p + k) = false → memRead m p n = none)

/-- R52, R55: which regions are admitted, and that an admitted one is read as its bytes in ascending address order; an empty one
is admitted at any address. -/
def Obligations.AdmittedRegions : Prop :=
  (∀ (s : State) (p n : Nat) (bytes : List Byte),
    regionBytes s p n = some bytes ↔ (bytes.length = n ∧ s.Region p bytes)) ∧
  (∀ (s : State) (p n : Nat),
    (regionBytes s p n).isSome = true ↔
      (n = 0 ∨ (p + n ≤ 2 ^ s.cfg.addrW.bits ∧ ∀ k : Nat, k < n → readable s.mem (p + k) = true)))

/-- R56: the reads each strategy issues, by address and width, in order; they cover every byte of the region exactly once, in ascending order, and no other byte; and
folding what they read, each as it comes, gives the register of the mode's path over the region's bytes. The plan stands beside
exec, which reads the region byte by byte as R56 allows (log entry 15). -/
def Obligations.ReadsOfARegion : Prop :=
  (∀ p n : Nat, accessPlan .softwareTable p n = (List.range n).map (fun j => { addr := p + j, width := .byte })) ∧
  (∀ p n : Nat, accessPlan .hardwareNarrow p n =
    (List.range (n / 4)).map (fun j => { addr := p + 4 * j, width := .word32 }) ++
      (List.range (n % 4)).map (fun j => { addr := p + 4 * (n / 4) + j, width := .byte })) ∧
  (∀ p n : Nat, accessPlan .hardwareWide p n =
    (List.range (n / 8)).map (fun j => { addr := p + 8 * j, width := .word64 }) ++
      (List.range (n % 8)).map (fun j => { addr := p + 8 * (n / 8) + j, width := .byte })) ∧
  (∀ (m : Strategy) (p n : Nat),
    (accessPlan m p n).flatMap (fun x => (List.range (readSize x.width)).map (fun k => x.addr + k)) =
      (List.range n).map (fun k => p + k)) ∧
  (∀ (table : RegFile Word) (m : Strategy) (s : State) (p n : Nat) (bytes : List Byte) (r : Word),
    regionBytes s p n = some bytes →
    foldAccesses table m s.mem r (accessPlan m p n) = some (path table m r bytes))

/-- R60, R65: a host write that stands before a command is seen by it: after the step that makes it, the byte reads as written
(where it is readable), every other byte as before, the memory's form is kept, and the block's state is unchanged. -/
def Obligations.HostWriteIsSeen : Prop :=
  ∀ (s : State) (x : Nat) (b : Byte) (rest : List PortEvent), s.port = .hostWrite x b :: rest → Memory.wf s.mem = true →
    ∃ m : List Host.Cell, step s = .next { s with port := rest, mem := m } ∧
      readByte m x = (if readable s.mem x then some b else none) ∧
      (∀ y : Nat, y ≠ x → readByte m y = readByte s.mem y) ∧ Memory.wf m = true

/-- R53: no command writes host memory, and no step but a host agent's own write changes it. -/
def Obligations.BlockNeverWritesMemory : Prop :=
  (∀ (i : Instr) (s t : State), exec i s = .next t → ∀ x : Nat, readByte t.mem x = readByte s.mem x) ∧
  (∀ (s t : State), step s = .next t → (∀ (x : Nat) (b : Byte) (rest : List PortEvent), s.port ≠ .hostWrite x b :: rest) →
    t.mem = s.mem)

/-! ### The step -/

/-- When the item at the head of the port decodes to a command, the step is exec of it on the state with the item taken off. That
the host's sequence of commands (R31) is a list whose head a step takes is the model's choice (log entry 6, DESIGN CHOICE), and so
is that the item is taken off also where the command faults (log entry 10, DEDUCED); R14 and R15 say that a command is one
indivisible step from the state to a state and a response. -/
def Obligations.StepRunsTheDecodedCommand : Prop :=
  ∀ (s : State) (c : Command) (rest : List PortEvent) (i : Instr), s.port = .command c :: rest →
    decode s.cfg.addrW c = .ok i → step s = exec i { s with port := rest }

/-- R231 says that the block waits for its first command. That a step then changes nothing, and that an item which is no command
of R70 stops the model, are the model's choices (log entries 6, 7). -/
def Obligations.EmptyPortWaitsAndMalformedItemsStop : Prop :=
  (∀ s : State, s.port = [] → step s = .next s) ∧
  (∀ (s : State) (c : Command) (rest : List PortEvent), s.port = .command c :: rest →
    decode s.cfg.addrW c = .error .missingArguments → step s = .fault .missingArguments) ∧
  (∀ (s : State) (c : Command) (rest : List PortEvent), s.port = .command c :: rest →
    decode s.cfg.addrW c = .error .extraArguments → step s = .fault .extraArguments) ∧
  (∀ (s : State) (c : Command) (rest : List PortEvent), s.port = .command c :: rest →
    decode s.cfg.addrW c = .error .argumentTooWide → step s = .fault .argumentTooWide)

/-- R15, R78, R217: every command, in every state and with every operand, runs to completion when issued, and answers. -/
def Obligations.EveryCommandAnswers : Prop :=
  ∀ (i : Instr) (s : State), ∃ (t : State) (r : Response), exec i s = .next t ∧ t.response = some r

/-- R79: a RESULT is present exactly when the status is OK and the command is FINALIZE, GET_MODE or TABLE_READ. -/
def Obligations.ResultOnlyWhereTheRuleSays : Prop :=
  (∀ r : Response, resultOf r ≠ none → statusCode r = 0) ∧
  (∀ (i : Instr) (s t : State) (r : Response), exec i s = .next t → t.response = some r → statusCode r = 0 →
    (resultOf r ≠ none ↔ hasResult i = true))

/-- R31: the position in the program advances by one for each command that completes, with status OK or OUT_OF_RANGE, and stands
still at one that faults; nothing but a command moves it. -/
def Obligations.PositionInTheProgram : Prop :=
  (∀ (s t : State) (c : Command) (rest : List PortEvent), s.port = .command c :: rest → step s = .next t →
    ∃ r : Response, t.response = some r ∧ t.position = s.position + (if statusCode r = 2 then 0 else 1)) ∧
  (∀ (s t : State), step s = .next t → (∀ (c : Command) (rest : List PortEvent), s.port ≠ .command c :: rest) →
    t.position = s.position)

/-! ### Faults and rejections (60_exceptions.md) -/

/-- R201, R209, R210: a command that faults changes nothing but FAULT, and returns FAULT with the cause; a faulted block executes
no command, returns the recorded cause and changes nothing, also where the word issued is illegal, which check 1 of R206 comes
before (what the port then holds is said in IllegalWordOnAFaultedBlock); and no step clears FAULT or puts another cause into it. -/
def Obligations.FaultsArePreciseAndSticky : Prop :=
  (∀ (i : Instr) (s t : State) (c : Cause), s.fault = none → exec i s = .next t → t.fault = some c →
    t = { s with fault := some c, response := some (.fault c) }) ∧
  (∀ (i : Instr) (s : State) (c : Cause), s.fault = some c → exec i s = .next { s with response := some (.fault c) }) ∧
  (∀ (s : State) (c : Cause) (x : Command) (rest : List PortEvent), s.fault = some c → s.port = .command x :: rest →
    decode s.cfg.addrW x = .error .illegalCommand →
    ∃ port : List PortEvent, step s = .next { s with port := port, response := some (.fault c) }) ∧
  (∀ (s t : State) (c : Cause), s.fault = some c → step s = .next t → t.fault = some c)

/-- R202: a command that names a slot at or past ACC_COUNT raises BAD_SLOT, whatever else holds. -/
def Obligations.BadSlotFaults : Prop :=
  ∀ (i : Instr) (a : SlotIx) (s : State), slotOf i = some a → s.fault = none → s.cfg.accCount ≤ a.toNat →
    exec i s = .next { s with fault := some .badSlot, response := some (.fault .badSlot) }

/-- R203: UPDATE_ONE, UPDATE, UPDATE_RAW or FINALIZE on a slot that is not live raises SLOT_NOT_INITIALISED, whatever its other
operands are: an UPDATE out of bounds reports it too (R207). -/
def Obligations.SlotNotInitialisedFaults : Prop :=
  ∀ (i : Instr) (a : SlotIx) (s : State), slotOf i = some a → needsLive i = true → s.fault = none →
    a.toNat < s.cfg.accCount → s.accValid.get a = false →
    exec i s = .next { s with fault := some .slotNotInitialised, response := some (.fault .slotNotInitialised) }

/-- R205: an UPDATE whose `OFF + CNT` exceeds `LEN` is rejected: no state of the block changes, the region is not looked at, FAULT
stays NONE, and a FINALIZE of any slot then answers what it answered before. -/
def Obligations.UpdateOutOfRange : Prop :=
  ∀ (a : SlotIx) (base len off cnt : Nat) (s : State), s.fault = none → s.Live a → len < off + cnt →
    ∃ t : State, exec (.update a base len off cnt) s = .next t ∧
      t = { s with response := some .outOfRange, position := s.position + 1 } ∧
      (∀ b : SlotIx, s.Live b → ∃ u v : State, exec (.finalize b) s = .next u ∧ exec (.finalize b) t = .next v ∧
        v.response = u.response)

/-- R55 with R160, R165, R206: within bounds, an UPDATE whose region is not admitted raises MEMORY_FAULT before any state changes,
and so does an UPDATE_RAW: where a byte is not readable, and where the region passes the top of the address space. -/
def Obligations.RegionNotAdmittedFaults : Prop :=
  (∀ (a : SlotIx) (base len off cnt k : Nat) (s : State), s.fault = none → s.Live a → off + cnt ≤ len → k < cnt →
    (2 ^ s.cfg.addrW.bits < base + off + cnt ∨ readable s.mem (base + off + k) = false) →
    exec (.update a base len off cnt) s =
      .next { s with fault := some .memoryFault, response := some (.fault .memoryFault) }) ∧
  (∀ (a : SlotIx) (ptr cnt k : Nat) (s : State), s.fault = none → s.Live a → k < cnt →
    (2 ^ s.cfg.addrW.bits < ptr + cnt ∨ readable s.mem (ptr + k) = false) →
    exec (.updateRaw a ptr cnt) s =
      .next { s with fault := some .memoryFault, response := some (.fault .memoryFault) })

/-! ### The commands (41_capability.md, 42_table.md, 43_accumulator.md) -/

/-- R150, R120, R151: ACC_NEW on any slot that exists, live or not, runs detection, starts the slot at 0xFFFFFFFF and completes;
the table is built only when detection takes the software branch; the other slots and the host's side are unchanged. -/
def Obligations.AccNewStartsTheSlot : Prop :=
  ∀ (a : SlotIx) (s : State), s.fault = none → a.toNat < s.cfg.accCount →
    ∃ t : State, exec (.accNew a) s = .next t ∧ t.acc.get a = 0xFFFFFFFF ∧ t.accValid.get a = true ∧
      t.mode = s.detectedMode ∧
      (s.mode = .undetected ∧ s.cfg.hwLevel = .none → t.tableValid = true ∧ ∀ i : Byte, t.table.get i = tableFn i) ∧
      (¬(s.mode = .undetected ∧ s.cfg.hwLevel = .none) → t.tableValid = s.tableValid ∧ t.table = s.table) ∧
      OtherSlotsSame a s t ∧ HostSame s t ∧ CompletedOk none s t

/-- R124, R123, R126: SET_MODE writes MODE and nothing else of the block when HW_LEVEL supports the mode (narrow needs level 1,
wide level 2, the others none), and otherwise raises MODE_UNSUPPORTED. -/
def Obligations.SetModeWritesMode : Prop :=
  (∀ (m : Mode) (s : State), s.fault = none → (m = .hardwareNarrow → s.cfg.hwLevel ≠ .none) →
    (m = .hardwareWide → s.cfg.hwLevel = .word64) →
    exec (.setMode m) s = .next { s with mode := m, response := some (.ok none), position := s.position + 1 }) ∧
  (∀ (m : Mode) (s : State), s.fault = none →
    ((m = .hardwareNarrow ∧ s.cfg.hwLevel = .none) ∨ (m = .hardwareWide ∧ s.cfg.hwLevel ≠ .word64)) →
    exec (.setMode m) s = .next { s with fault := some .modeUnsupported, response := some (.fault .modeUnsupported) })

/-- R127: GET_MODE returns MODE zero-extended, 0 to 3 as R24 numbers them, writes nothing and runs no detection; after an ACC_NEW
that found MODE = 0 it returns the mode R123 marks for HW_LEVEL. -/
def Obligations.GetModeReadsMode : Prop :=
  (∀ s : State, s.fault = none →
    exec .getMode s =
      .next { s with
        response := some (.ok (some (match s.mode with
          | .undetected => 0
          | .softwareTable => 1
          | .hardwareNarrow => 2
          | .hardwareWide => 3)))
        position := s.position + 1 }) ∧
  (∀ (a : SlotIx) (s : State), s.fault = none → s.mode = .undetected → a.toNat < s.cfg.accCount →
    ∃ t u : State, exec (.accNew a) s = .next t ∧ exec .getMode t = .next u ∧
      u.response = some (.ok (some (match s.cfg.hwLevel with
        | .none => 1
        | .word32 => 2
        | .word64 => 3))))

/-- R141, R140: BUILD_TABLE, in every MODE, stores `T(i)` in every entry and sets TABLE_VALID; MODE, the slots and the host's side
are unchanged; on a built table it changes no entry. -/
def Obligations.BuildTableBuilds : Prop :=
  ∀ s : State, s.fault = none →
    ∃ t : State, exec .buildTable s = .next t ∧ t.tableValid = true ∧ (∀ i : Byte, t.table.get i = tableFn i) ∧
      t.mode = s.mode ∧ t.acc = s.acc ∧ t.accValid = s.accValid ∧ HostSame s t ∧ CompletedOk none s t ∧
      (s.TableOk → s.tableValid = true → t.table = s.table)

/-- R143: TABLE_READ returns the entry of a built table, which is `T(i)`, and raises TABLE_NOT_BUILT on one that is not built; it
builds nothing and writes nothing. -/
def Obligations.TableReadReadsTheEntry : Prop :=
  (∀ (i : Byte) (s : State), s.fault = none → s.tableValid = true → s.TableOk →
    exec (.tableRead i) s = .next { s with response := some (.ok (some (tableFn i))), position := s.position + 1 }) ∧
  (∀ (i : Byte) (s : State), s.fault = none → s.tableValid = true →
    exec (.tableRead i) s = .next { s with response := some (.ok (some (s.table.get i))), position := s.position + 1 }) ∧
  (∀ (i : Byte) (s : State), s.fault = none → s.tableValid = false →
    exec (.tableRead i) s = .next { s with fault := some .tableNotBuilt, response := some (.fault .tableNotBuilt) })

/-- R155: in every mode UPDATE_ONE makes `ACC[a]` the byte step of `ACC[a]` and `b`, and completes. -/
def Obligations.UpdateOneFoldsTheByte : Prop :=
  ∀ (a : SlotIx) (b : Byte) (s : State), s.fault = none → s.Live a → s.TableOk →
    ∃ t : State, exec (.updateOne a b) s = .next t ∧ t.acc.get a = swByte (s.acc.get a) b ∧ UpdateFrame a s t

/-- R160, R112: in every mode an UPDATE within bounds whose `CNT` bytes at `BASE + OFF` are readable makes `ACC[a]` the fold of
those bytes, in ascending address order, and completes; a zero count leaves `ACC[a]` as it is and still runs detection. -/
def Obligations.UpdateFoldsTheBytes : Prop :=
  ∀ (a : SlotIx) (base len off cnt : Nat) (bytes : List Byte) (s : State), s.fault = none → s.Live a → s.TableOk →
    off + cnt ≤ len → bytes.length = cnt → s.Region (base + off) bytes →
    ∃ t : State, exec (.update a base len off cnt) s = .next t ∧ t.acc.get a = fold (s.acc.get a) bytes ∧ UpdateFrame a s t

/-- R165, R112: in every mode an UPDATE_RAW whose `CNT` bytes at `PTR` are readable makes `ACC[a]` the fold of those bytes, and
completes; with a zero count no address is examined. -/
def Obligations.UpdateRawFoldsTheBytes : Prop :=
  ∀ (a : SlotIx) (ptr cnt : Nat) (bytes : List Byte) (s : State), s.fault = none → s.Live a → s.TableOk →
    bytes.length = cnt → s.Region ptr bytes →
    ∃ t : State, exec (.updateRaw a ptr cnt) s = .next t ∧ t.acc.get a = fold (s.acc.get a) bytes ∧ UpdateFrame a s t

/-- R170: FINALIZE returns the complement of the register and writes nothing of the block; so two in a row return the same. -/
def Obligations.FinalizeReturnsTheComplement : Prop :=
  ∀ (a : SlotIx) (s : State), s.fault = none → s.Live a →
    exec (.finalize a) s =
      .next { s with response := some (.ok (some (~~~(s.acc.get a)))), position := s.position + 1 }

/-! ### Frames -/

/-- R22, R23, R172: a command that names slot `a` leaves every other slot as it was; one that names none leaves all slots as they
were; no command clears a valid bit, and only ACC_NEW sets one. -/
def Obligations.SlotsAreLeftAlone : Prop :=
  (∀ (i : Instr) (a : SlotIx) (s t : State), slotOf i = some a → exec i s = .next t → OtherSlotsSame a s t) ∧
  (∀ (i : Instr) (s t : State), slotOf i = none → exec i s = .next t → t.acc = s.acc ∧ t.accValid = s.accValid) ∧
  (∀ (i : Instr) (s t : State) (b : SlotIx), exec i s = .next t →
    t.accValid.get b = s.accValid.get b ∨ (i = .accNew b ∧ t.accValid.get b = true))

/-- R25, R28: which commands write MODE and which write TABLE and TABLE_VALID. Only SET_MODE, and detection in ACC_NEW and the
updates, write MODE. The table is written, with `T(i)` in every entry and TABLE_VALID set, only by BUILD_TABLE, by detection's
software branch (an ACC_NEW or an update that finds MODE = 0 where HW_LEVEL is 0) and by the lazy build (an update in software
mode that finds the table not built). Nothing clears TABLE_VALID. -/
def Obligations.WritersOfModeAndTable : Prop :=
  (∀ (i : Instr) (s t : State), exec i s = .next t →
    t.mode = s.mode ∨ i = .setMode t.mode ∨ (initialises i = true ∧ i ≠ .buildTable ∧ t.mode = s.detectedMode)) ∧
  (∀ (i : Instr) (s t : State), exec i s = .next t →
    (t.table = s.table ∧ t.tableValid = s.tableValid) ∨
    (t.tableValid = true ∧ (∀ j : Byte, t.table.get j = tableFn j) ∧
      (i = .buildTable ∨
        (((∃ a : SlotIx, i = .accNew a) ∨ isUpdate i = true) ∧ s.mode = .undetected ∧ s.cfg.hwLevel = .none) ∨
        (isUpdate i = true ∧ s.detectedMode = .softwareTable ∧ s.tableValid = false)))) ∧
  (∀ (s t : State), s.tableValid = true → step s = .next t → t.tableValid = true)

/-- R127, R143, R170: FINALIZE, GET_MODE and TABLE_READ write nothing of the block but, where they fault, FAULT. -/
def Obligations.ReadingCommandsFrame : Prop :=
  ∀ (i : Instr) (s t : State), hasResult i = true → exec i s = .next t →
    t.mode = s.mode ∧ t.table = s.table ∧ t.tableValid = s.tableValid ∧ t.acc = s.acc ∧ t.accValid = s.accValid ∧
    HostSame s t ∧ (t.fault = s.fault ∨ ∃ c : Cause, s.fault = none ∧ t.fault = some c ∧ t.response = some (.fault c))

/-- R155, R160, R165, R150: ACC_NEW and the updates leave the configuration, host memory (every byte of it), the port and, unless
they fault, FAULT as they were; the updates leave every valid bit as it was. -/
def Obligations.AccumulatorCommandsFrame : Prop :=
  (∀ (i : Instr) (s t : State), (isUpdate i = true ∨ ∃ a : SlotIx, i = .accNew a) → exec i s = .next t →
    HostSame s t ∧ (t.fault = s.fault ∨ ∃ c : Cause, s.fault = none ∧ t.fault = some c ∧ t.response = some (.fault c))) ∧
  (∀ (i : Instr) (s t : State), isUpdate i = true → exec i s = .next t → t.accValid = s.accValid)

/-- R124, R141: SET_MODE and BUILD_TABLE leave the slots and the host's side as they were, SET_MODE the table too, and BUILD_TABLE
MODE too. -/
def Obligations.ModeAndTableCommandsFrame : Prop :=
  (∀ (m : Mode) (s t : State), exec (.setMode m) s = .next t →
    t.table = s.table ∧ t.tableValid = s.tableValid ∧ t.acc = s.acc ∧ t.accValid = s.accValid ∧ HostSame s t ∧
    (t.fault = s.fault ∨ (s.fault = none ∧ t.fault = some .modeUnsupported ∧ t.mode = s.mode))) ∧
  (∀ (s t : State), exec .buildTable s = .next t →
    t.mode = s.mode ∧ t.acc = s.acc ∧ t.accValid = s.accValid ∧ HostSame s t ∧ t.fault = s.fault)

/-! ### The whole machine -/

/-- The invariant holds right after reset, for every legal configuration, every readable memory in canonical form and every
program. -/
def Obligations.ResetMeetsTheInvariant : Prop :=
  ∀ (c : Config) (m : List Host.Cell) (p : List PortEvent), c.Legal → Memory.wf m = true → (State.resetWith c m p).Inv

/-- Every step keeps the invariant: a built table holds `T` (R27), only slots that exist are live (R20, R21), MODE is one HW_LEVEL
supports (R123), host memory stays in canonical form and the configuration stays legal and the same (R30). -/
def Obligations.StepKeepsTheInvariant : Prop :=
  ∀ s t : State, s.Inv → step s = .next t → t.Inv ∧ t.cfg = s.cfg

/-- R35: reset leaves MODE 0, TABLE_VALID 0, every ACC_VALID 0 and FAULT NONE, for every configuration; TABLE and ACC hold no
value: whatever stood in them, no sequence of steps could tell, so each command answers the same. -/
def Obligations.ResetValues : Prop :=
  (∀ (c : Config) (m : List Host.Cell) (p : List PortEvent),
    (State.resetWith c m p).mode = .undetected ∧ (State.resetWith c m p).tableValid = false ∧
    (∀ a : SlotIx, (State.resetWith c m p).accValid.get a = false) ∧ (State.resetWith c m p).fault = none) ∧
  (∀ (c : Config) (m : List Host.Cell) (p : List PortEvent) (table acc : RegFile Word) (k : Nat) (t : State),
    RunsTo k (State.resetWith c m p) t →
    ∃ u : State, RunsTo k { State.resetWith c m p with table := table, acc := acc } u ∧ u.response = t.response ∧
      u.fault = t.fault ∧ u.mode = t.mode)

/-- R26: once ACC_NEW, UPDATE_ONE, UPDATE or UPDATE_RAW completes with status OK, MODE is 1, 2 or 3; and a step leaves MODE 0 only
where it was 0 before or the command is SET_MODE with mode 0. -/
def Obligations.ModeIsConcreteAfterUse : Prop :=
  (∀ (i : Instr) (s t : State) (r : Option Word), (isUpdate i = true ∨ ∃ a : SlotIx, i = .accNew a) → exec i s = .next t →
    t.response = some (.ok r) → t.mode = .softwareTable ∨ t.mode = .hardwareNarrow ∨ t.mode = .hardwareWide) ∧
  (∀ s t : State, step s = .next t → t.mode = .undetected →
    s.mode = .undetected ∨ ∃ rest : List PortEvent, s.port = .command { word := 0x20000000, args := [] } :: rest)

/-- R144: once the table is built, it stays built and every TABLE_READ(i) returns `T(i)`, after any number of steps. -/
def Obligations.TableIsStable : Prop :=
  ∀ (k : Nat) (s t : State), s.tableValid = true → s.TableOk → RunsTo k s t →
    t.tableValid = true ∧ t.table = s.table ∧
    (t.fault = none → ∀ i : Byte, ∃ u : State, exec (.tableRead i) t = .next u ∧ u.response = some (.ok (some (tableFn i))))

/-- R201: a run whose last state is not faulted raised no fault at any step: each of its states is not faulted. -/
def Obligations.UnfaultedRunNeverFaulted : Prop :=
  ∀ (j k : Nat) (s t : State), RunsTo (j + k) s t → t.fault = none → ∃ u : State, RunsTo j s u ∧ RunsTo k u t ∧ u.fault = none

/-- R21, R27, 93_implementation_defined.md U5, U15: TABLE while it is not built and the registers of slots that are not live cannot
be seen: two states that differ only there answer the same at every step and differ only there afterwards. -/
def Obligations.UnwrittenValuesAreUnseen : Prop :=
  (∀ s t s' : State, SameValues s t → step s = .next s' → ∃ t' : State, step t = .next t' ∧ SameValues s' t') ∧
  (∀ (s t : State) (f : Fault), SameValues s t → step s = .fault f → step t = .fault f)

/-- R172: a command naming slot `a` reads no other slot: on two states that differ only in other slots it answers the same, and
they differ only in other slots afterwards; and a command that names none answers the same whatever the slots hold. -/
def Obligations.SlotsAreNotReadByOthers : Prop :=
  (∀ (i : Instr) (a : SlotIx) (s t s' : State), slotOf i = some a → SameBut a s t → exec i s = .next s' →
    ∃ t' : State, exec i t = .next t' ∧ SameBut a s' t') ∧
  (∀ (i : Instr) (a : SlotIx) (s t s' : State), slotOf i = none → SameBut a s t → exec i s = .next s' →
    ∃ t' : State, exec i t = .next t' ∧ SameBut a s' t')

/-- R64, R120, R140, R142: two commands that may trigger detection or the table build leave the same MODE and the same TABLE in
either order. Any number of them is said in InitialisationConvergesInEveryOrder. -/
def Obligations.InitialisationConverges : Prop :=
  ∀ (i j : Instr) (s s1 s2 u1 u2 : State) (q1 q2 v1 v2 : Option Word), initialises i = true → initialises j = true → s.TableOk →
    exec i s = .next s1 → s1.response = some (.ok q1) → exec j s1 = .next s2 → s2.response = some (.ok q2) →
    exec j s = .next u1 → u1.response = some (.ok v1) → exec i u1 = .next u2 → u2.response = some (.ok v2) →
    s2.mode = u2.mode ∧ s2.tableValid = u2.tableValid ∧ s2.table = u2.table

/-- R241, R124, R125, R112: a SET_MODE between two UPDATE_RAWs of one slot changes no checksum: folding the bytes of a region in
two chunks, under whatever MODE before and whatever supported MODE after, gives the fold of the whole. The same of any updates and
any number of SET_MODEs is said in ModeChangesAmongAnyUpdates. -/
def Obligations.ModeChangeIsNoHazard : Prop :=
  ∀ (a : SlotIx) (ptr : Nat) (b1 b2 : List Byte) (m : Mode) (s : State), s.fault = none → s.Live a → s.TableOk →
    s.Region ptr (b1 ++ b2) → supported m s.cfg.hwLevel = true →
    ∃ t1 t2 t3 : State, exec (.updateRaw a ptr b1.length) s = .next t1 ∧ exec (.setMode m) t1 = .next t2 ∧
      exec (.updateRaw a (ptr + b1.length) b2.length) t2 = .next t3 ∧
      t3.response = some (.ok none) ∧ t3.acc.get a = fold (s.acc.get a) (b1 ++ b2)

/-- R170, R171 for one UPDATE_RAW before and one after: FINALIZE may stand between two UPDATE_RAWs: from a fresh slot, after `b1`
it returns `~Fold(INIT, b1)`, and after `b1 ++ b2` it returns `~Fold(INIT, b1 ++ b2)`. Any updates are said in
FinalizeAmongAnyUpdates. -/
def Obligations.FinalizeMidStream : Prop :=
  ∀ (a : SlotIx) (p1 p2 : Nat) (b1 b2 : List Byte) (s : State), s.fault = none → a.toNat < s.cfg.accCount → s.TableOk →
    s.Region p1 b1 → s.Region p2 b2 →
    ∃ t0 t1 t2 t3 t4 : State, exec (.accNew a) s = .next t0 ∧ exec (.updateRaw a p1 b1.length) t0 = .next t1 ∧
      exec (.finalize a) t1 = .next t2 ∧ exec (.updateRaw a p2 b2.length) t2 = .next t3 ∧
      exec (.finalize a) t3 = .next t4 ∧
      t2.response = some (.ok (some (~~~(fold 0xFFFFFFFF b1)))) ∧
      t4.response = some (.ok (some (~~~(fold 0xFFFFFFFF (b1 ++ b2)))))

/-- R126, R121: SET_MODE with mode 0 brings the block back to Undetected with no other effect, and the next ACC_NEW, which runs
detection again, selects from HW_LEVEL. -/
def Obligations.RedetectionAfterUndetected : Prop :=
  ∀ (a : SlotIx) (s : State), s.fault = none → a.toNat < s.cfg.accCount →
    ∃ t u : State, exec (.setMode .undetected) s = .next t ∧
      t = { s with mode := .undetected, response := some (.ok none), position := s.position + 1 } ∧
      exec (.accNew a) t = .next u ∧
      u.mode = (match s.cfg.hwLevel with
        | .none => .softwareTable
        | .word32 => .hardwareNarrow
        | .word64 => .hardwareWide)

/-! ### An illegal word while faulted, and sequences of commands -/

/-- R201, R206 (checks 1 and 2), R210: an illegal word issued to a faulted block returns the recorded cause, not ILLEGAL_COMMAND, and
changes nothing of the block. That its item leaves the port, whole, is the model's choice (log entries 6, 7, 10). -/
def Obligations.IllegalWordOnAFaultedBlock : Prop :=
  ∀ (s : State) (c : Cause) (x : Command) (rest : List PortEvent), s.fault = some c → s.port = .command x :: rest →
    decode s.cfg.addrW x = .error .illegalCommand → step s = .next { s with port := rest, response := some (.fault c) }

/-- R241, R124, R125, R112, R172: SET_MODEs of supported modes, of mode 0 too, anywhere among any updates of one slot (UPDATE_ONE,
UPDATE and UPDATE_RAW mixed, each admitted) change no checksum: all of them complete, the slot holds the fold of the updates' bytes
in order, and a FINALIZE then returns its complement, whatever the modes were. -/
def Obligations.ModeChangesAmongAnyUpdates : Prop :=
  ∀ (a : SlotIx) (cs : List (Instr × List Byte)) (s : State), s.fault = none → s.Live a → s.TableOk →
    (∀ c ∈ cs, s.Folds a c.1 c.2 ∨ ∃ m : Mode, c = (.setMode m, []) ∧ supported m s.cfg.hwLevel = true) →
    ∃ t u : State, execAll (cs.map Prod.fst) s = .next t ∧ t.fault = none ∧ t.position = s.position + cs.length ∧
      t.acc.get a = fold (s.acc.get a) (cs.flatMap Prod.snd) ∧ exec (.finalize a) t = .next u ∧
      u.response = some (.ok (some (~~~(fold (s.acc.get a) (cs.flatMap Prod.snd)))))

/-- R171: FINALIZEs may stand anywhere among any updates of one slot (UPDATE_ONE, UPDATE and UPDATE_RAW mixed, each admitted): from
a fresh slot, a FINALIZE after the prefix `cs` returns `~Fold(INIT, B1)` for the bytes B1 that `cs` folds, and one after `ds` too
returns `~Fold(INIT, B1 ++ B2)`. -/
def Obligations.FinalizeAmongAnyUpdates : Prop :=
  ∀ (a : SlotIx) (cs ds : List (Instr × List Byte)) (s : State), s.fault = none → a.toNat < s.cfg.accCount → s.TableOk →
    (∀ c ∈ cs ++ ds, s.Folds a c.1 c.2 ∨ c = (.finalize a, [])) →
    ∃ t0 t1 t2 t3 t4 : State, exec (.accNew a) s = .next t0 ∧ execAll (cs.map Prod.fst) t0 = .next t1 ∧
      exec (.finalize a) t1 = .next t2 ∧ execAll (ds.map Prod.fst) t2 = .next t3 ∧ exec (.finalize a) t3 = .next t4 ∧
      t2.response = some (.ok (some (~~~(fold 0xFFFFFFFF (cs.flatMap Prod.snd))))) ∧
      t4.response = some (.ok (some (~~~(fold 0xFFFFFFFF (cs.flatMap Prod.snd ++ ds.flatMap Prod.snd)))))

/-- R64, R120, R140, R142: any number of commands that may trigger detection or the table build, of any host agents, leave the same
MODE, TABLE_VALID and TABLE in every order in which none of them faults. -/
def Obligations.InitialisationConvergesInEveryOrder : Prop :=
  ∀ (cs ds : List Instr) (s t u : State), cs.Perm ds → (∀ i ∈ cs, initialises i = true) → s.TableOk →
    execAll cs s = .next t → t.fault = none → execAll ds s = .next u → u.fault = none →
    t.mode = u.mode ∧ t.tableValid = u.tableValid ∧ t.table = u.table
end

