-- ==== Sys2Proof/Laws/Decode.lean ====
section
/-! SUPPORT. The fields of a command word put together by `cmdWord`, a word put together from its fields, and the mode numbers. -/

namespace Sys2Proof

theorem opField_cmdWord (op : BitVec 4) (m : BitVec 2) (imm : Byte) (a : SlotIx) : opField (cmdWord op m imm a) = op := by
  unfold opField cmdWord
  ext k hk
  interval_cases k <;> simp

theorem mField_cmdWord (op : BitVec 4) (m : BitVec 2) (imm : Byte) (a : SlotIx) : mField (cmdWord op m imm a) = m := by
  unfold mField cmdWord
  ext k hk
  interval_cases k <;> simp

theorem zField_cmdWord (op : BitVec 4) (m : BitVec 2) (imm : Byte) (a : SlotIx) : zField (cmdWord op m imm a) = 0 := by
  unfold zField cmdWord
  ext k hk
  interval_cases k <;> simp

theorem immField_cmdWord (op : BitVec 4) (m : BitVec 2) (imm : Byte) (a : SlotIx) : immField (cmdWord op m imm a) = imm := by
  unfold immField cmdWord
  ext k hk
  interval_cases k <;> simp

theorem accField_cmdWord (op : BitVec 4) (m : BitVec 2) (imm : Byte) (a : SlotIx) : accField (cmdWord op m imm a) = a := by
  unfold accField cmdWord
  ext k hk
  interval_cases k <;> simp

/-- A word whose reserved field is 0 is its four other fields. -/
theorem cmdWord_fields (x : Word) (hz : zField x = 0) : cmdWord (opField x) (mField x) (immField x) (accField x) = x := by
  have hb (j : Nat) (hj : j < 10) : x.getLsbD (16 + j) = false := by
    have := congrArg (fun v => v.getLsbD j) hz
    simpa [zField, hj] using this
  unfold opField mField immField accField cmdWord
  ext k hk
  interval_cases k <;> simp <;> first
    | exact hb 0 (by omega) | exact hb 1 (by omega) | exact hb 2 (by omega) | exact hb 3 (by omega) | exact hb 4 (by omega)
    | exact hb 5 (by omega) | exact hb 6 (by omega) | exact hb 7 (by omega) | exact hb 8 (by omega) | exact hb 9 (by omega)

@[simp] theorem modeOfBits_modeBits (m : Mode) : modeOfBits (modeBits m) = m := by cases m <;> decide

@[simp] theorem modeBits_modeOfBits (b : BitVec 2) : modeBits (modeOfBits b) = b := by
  revert b
  decide

end Sys2Proof
end

