-- ==== Sys2Proof/Laws/RegFile.lean ====
section
/-! SUPPORT. Reading a register file after a write, a fill and a build; two files with the same registers are one. -/

namespace Sys2Proof

@[simp] theorem RegFile.get_set_same {α : Type} (f : RegFile α) (i : BitVec 8) (v : α) : (f.set i v).get i = v := by
  simp [RegFile.get, RegFile.set]

theorem RegFile.get_set_ne {α : Type} (f : RegFile α) {i j : BitVec 8} (v : α) (h : j ≠ i) : (f.set i v).get j = f.get j := by
  have h' : i.toNat ≠ j.toNat := fun e => h (BitVec.eq_of_toNat_eq e.symm)
  simp [RegFile.get, RegFile.set, List.getElem_set_ne h']

theorem RegFile.get_set {α : Type} (f : RegFile α) (i j : BitVec 8) (v : α) :
    (f.set i v).get j = if j = i then v else f.get j := by
  by_cases h : j = i
  · subst h; simp
  · simp [h, RegFile.get_set_ne f v h]

@[simp] theorem RegFile.get_all {α : Type} (v : α) (i : BitVec 8) : (RegFile.all v).get i = v := by
  unfold RegFile.get RegFile.all
  exact List.getElem_replicate _

@[simp] theorem RegFile.get_ofFn {α : Type} (g : BitVec 8 → α) (i : BitVec 8) : (RegFile.ofFn g).get i = g i := by
  simp [RegFile.get, RegFile.ofFn]

theorem RegFile.ext_get {α : Type} {f g : RegFile α} (h : ∀ i : BitVec 8, f.get i = g.get i) : f = g := by
  obtain ⟨xs, hx⟩ := f
  obtain ⟨ys, hy⟩ := g
  have e : xs = ys := by
    apply List.ext_getElem (hx.trans hy.symm)
    intro n h1 h2
    have hn : n < 256 := hx ▸ h1
    have := h (BitVec.ofNat 8 n)
    simpa [RegFile.get, Nat.mod_eq_of_lt hn] using this
  subst e
  rfl

theorem RegFile.set_set_comm {α : Type} (f : RegFile α) {i j : BitVec 8} (v w : α) (h : i ≠ j) :
    (f.set i v).set j w = (f.set j w).set i v := by
  apply RegFile.ext_get
  intro k
  simp only [RegFile.get_set]
  split <;> split <;> simp_all

theorem RegFile.set_set_same {α : Type} (f : RegFile α) (i : BitVec 8) (v w : α) : (f.set i v).set i w = f.set i w := by
  apply RegFile.ext_get
  intro k
  simp only [RegFile.get_set]
  split <;> rfl

@[simp] theorem builtTable_get (i : Byte) : Machine.builtTable.get i = Machine.tableFn i := RegFile.get_ofFn _ _

/-- A table all of whose entries are `T` is the built table. -/
theorem table_eq_builtTable {table : RegFile Word} (h : ∀ i : Byte, table.get i = Machine.tableFn i) : table = Machine.builtTable :=
  RegFile.ext_get (fun i => (h i).trans (builtTable_get i).symm)

end Sys2Proof
end

