-- ==== Sys2Proof/Laws/State.lean ====
section
/-! SUPPORT. One lemma per field per update of the state, each true by rfl, so that no proof unfolds a record update. -/

namespace Sys2Proof.Machine

/-! ### writeAcc -/

@[simp] theorem writeAcc_mode (a : SlotIx) (v : Word) (s : State) : (writeAcc a v s).mode = s.mode := rfl
@[simp] theorem writeAcc_table (a : SlotIx) (v : Word) (s : State) : (writeAcc a v s).table = s.table := rfl
@[simp] theorem writeAcc_tableValid (a : SlotIx) (v : Word) (s : State) : (writeAcc a v s).tableValid = s.tableValid := rfl
@[simp] theorem writeAcc_acc (a : SlotIx) (v : Word) (s : State) : (writeAcc a v s).acc = s.acc.set a v := rfl
@[simp] theorem writeAcc_accValid (a : SlotIx) (v : Word) (s : State) : (writeAcc a v s).accValid = s.accValid := rfl
@[simp] theorem writeAcc_fault (a : SlotIx) (v : Word) (s : State) : (writeAcc a v s).fault = s.fault := rfl
@[simp] theorem writeAcc_cfg (a : SlotIx) (v : Word) (s : State) : (writeAcc a v s).cfg = s.cfg := rfl
@[simp] theorem writeAcc_mem (a : SlotIx) (v : Word) (s : State) : (writeAcc a v s).mem = s.mem := rfl
@[simp] theorem writeAcc_port (a : SlotIx) (v : Word) (s : State) : (writeAcc a v s).port = s.port := rfl
@[simp] theorem writeAcc_response (a : SlotIx) (v : Word) (s : State) : (writeAcc a v s).response = s.response := rfl
@[simp] theorem writeAcc_position (a : SlotIx) (v : Word) (s : State) : (writeAcc a v s).position = s.position := rfl

/-! ### setValid -/

@[simp] theorem setValid_mode (a : SlotIx) (s : State) : (setValid a s).mode = s.mode := rfl
@[simp] theorem setValid_table (a : SlotIx) (s : State) : (setValid a s).table = s.table := rfl
@[simp] theorem setValid_tableValid (a : SlotIx) (s : State) : (setValid a s).tableValid = s.tableValid := rfl
@[simp] theorem setValid_acc (a : SlotIx) (s : State) : (setValid a s).acc = s.acc := rfl
@[simp] theorem setValid_accValid (a : SlotIx) (s : State) : (setValid a s).accValid = s.accValid.set a true := rfl
@[simp] theorem setValid_fault (a : SlotIx) (s : State) : (setValid a s).fault = s.fault := rfl
@[simp] theorem setValid_cfg (a : SlotIx) (s : State) : (setValid a s).cfg = s.cfg := rfl
@[simp] theorem setValid_mem (a : SlotIx) (s : State) : (setValid a s).mem = s.mem := rfl
@[simp] theorem setValid_port (a : SlotIx) (s : State) : (setValid a s).port = s.port := rfl
@[simp] theorem setValid_response (a : SlotIx) (s : State) : (setValid a s).response = s.response := rfl
@[simp] theorem setValid_position (a : SlotIx) (s : State) : (setValid a s).position = s.position := rfl

/-! ### writeMode -/

@[simp] theorem writeMode_mode (m : Mode) (s : State) : (writeMode m s).mode = m := rfl
@[simp] theorem writeMode_table (m : Mode) (s : State) : (writeMode m s).table = s.table := rfl
@[simp] theorem writeMode_tableValid (m : Mode) (s : State) : (writeMode m s).tableValid = s.tableValid := rfl
@[simp] theorem writeMode_acc (m : Mode) (s : State) : (writeMode m s).acc = s.acc := rfl
@[simp] theorem writeMode_accValid (m : Mode) (s : State) : (writeMode m s).accValid = s.accValid := rfl
@[simp] theorem writeMode_fault (m : Mode) (s : State) : (writeMode m s).fault = s.fault := rfl
@[simp] theorem writeMode_cfg (m : Mode) (s : State) : (writeMode m s).cfg = s.cfg := rfl
@[simp] theorem writeMode_mem (m : Mode) (s : State) : (writeMode m s).mem = s.mem := rfl
@[simp] theorem writeMode_port (m : Mode) (s : State) : (writeMode m s).port = s.port := rfl
@[simp] theorem writeMode_response (m : Mode) (s : State) : (writeMode m s).response = s.response := rfl
@[simp] theorem writeMode_position (m : Mode) (s : State) : (writeMode m s).position = s.position := rfl

/-! ### buildTable -/

@[simp] theorem buildTable_mode (s : State) : (buildTable s).mode = s.mode := rfl
@[simp] theorem buildTable_table (s : State) : (buildTable s).table = builtTable := rfl
@[simp] theorem buildTable_tableValid (s : State) : (buildTable s).tableValid = true := rfl
@[simp] theorem buildTable_acc (s : State) : (buildTable s).acc = s.acc := rfl
@[simp] theorem buildTable_accValid (s : State) : (buildTable s).accValid = s.accValid := rfl
@[simp] theorem buildTable_fault (s : State) : (buildTable s).fault = s.fault := rfl
@[simp] theorem buildTable_cfg (s : State) : (buildTable s).cfg = s.cfg := rfl
@[simp] theorem buildTable_mem (s : State) : (buildTable s).mem = s.mem := rfl
@[simp] theorem buildTable_port (s : State) : (buildTable s).port = s.port := rfl
@[simp] theorem buildTable_response (s : State) : (buildTable s).response = s.response := rfl
@[simp] theorem buildTable_position (s : State) : (buildTable s).position = s.position := rfl

/-! ### present -/

@[simp] theorem present_mode (e : PortEvent) (s : State) : (present e s).mode = s.mode := rfl
@[simp] theorem present_table (e : PortEvent) (s : State) : (present e s).table = s.table := rfl
@[simp] theorem present_tableValid (e : PortEvent) (s : State) : (present e s).tableValid = s.tableValid := rfl
@[simp] theorem present_acc (e : PortEvent) (s : State) : (present e s).acc = s.acc := rfl
@[simp] theorem present_accValid (e : PortEvent) (s : State) : (present e s).accValid = s.accValid := rfl
@[simp] theorem present_fault (e : PortEvent) (s : State) : (present e s).fault = s.fault := rfl
@[simp] theorem present_cfg (e : PortEvent) (s : State) : (present e s).cfg = s.cfg := rfl
@[simp] theorem present_mem (e : PortEvent) (s : State) : (present e s).mem = s.mem := rfl
@[simp] theorem present_port (e : PortEvent) (s : State) : (present e s).port = e :: s.port := rfl
@[simp] theorem present_response (e : PortEvent) (s : State) : (present e s).response = s.response := rfl
@[simp] theorem present_position (e : PortEvent) (s : State) : (present e s).position = s.position := rfl

/-! ### resetWith -/

@[simp] theorem resetWith_mode (c : Config) (m : List Host.Cell) (p : List PortEvent) : (State.resetWith c m p).mode = .undetected := rfl
@[simp] theorem resetWith_table (c : Config) (m : List Host.Cell) (p : List PortEvent) : (State.resetWith c m p).table = RegFile.all 0 := rfl
@[simp] theorem resetWith_tableValid (c : Config) (m : List Host.Cell) (p : List PortEvent) : (State.resetWith c m p).tableValid = false := rfl
@[simp] theorem resetWith_acc (c : Config) (m : List Host.Cell) (p : List PortEvent) : (State.resetWith c m p).acc = RegFile.all 0 := rfl
@[simp] theorem resetWith_accValid (c : Config) (m : List Host.Cell) (p : List PortEvent) : (State.resetWith c m p).accValid = RegFile.all false := rfl
@[simp] theorem resetWith_fault (c : Config) (m : List Host.Cell) (p : List PortEvent) : (State.resetWith c m p).fault = none := rfl
@[simp] theorem resetWith_cfg (c : Config) (m : List Host.Cell) (p : List PortEvent) : (State.resetWith c m p).cfg = c := rfl
@[simp] theorem resetWith_mem (c : Config) (m : List Host.Cell) (p : List PortEvent) : (State.resetWith c m p).mem = m := rfl
@[simp] theorem resetWith_port (c : Config) (m : List Host.Cell) (p : List PortEvent) : (State.resetWith c m p).port = p := rfl
@[simp] theorem resetWith_response (c : Config) (m : List Host.Cell) (p : List PortEvent) : (State.resetWith c m p).response = none := rfl
@[simp] theorem resetWith_position (c : Config) (m : List Host.Cell) (p : List PortEvent) : (State.resetWith c m p).position = 0 := rfl

end Sys2Proof.Machine
end

