-- ==== Sys2Proof/Laws/Ops.lean ====
section
/-! SUPPORT. For each shared operation, once, everything it can do. Proofs cite these instead of unfolding the operation. -/

namespace Sys2Proof.Machine

/-! ### Ending a command and the common checks -/

theorem complete_next {r : Option Word} {s t : State} (h : complete r s = .next t) :
    t = { s with response := some (.ok r), position := s.position + 1 } := by
  simpa [complete] using h.symm

theorem rejectOutOfRange_next {s t : State} (h : rejectOutOfRange s = .next t) :
    t = { s with response := some .outOfRange, position := s.position + 1 } := by
  simpa [rejectOutOfRange] using h.symm

theorem raiseFault_next {c : Cause} {s t : State} (h : raiseFault c s = .next t) :
    t = { s with fault := some c, response := some (.fault c) } := by
  simpa [raiseFault] using h.symm

theorem unlessFaulted_next {s t : State} {k : StepResult} (h : unlessFaulted s k = .next t) :
    (∃ c, s.fault = some c ∧ t = { s with response := some (.fault c) }) ∨ (s.fault = none ∧ k = .next t) := by
  unfold unlessFaulted at h
  split at h
  · next c hc => exact .inl ⟨c, hc, by simpa using h.symm⟩
  · next hc => exact .inr ⟨hc, h⟩

theorem unlessFaulted_running {s : State} (k : StepResult) (h : s.fault = none) : unlessFaulted s k = k := by
  simp [unlessFaulted, h]

theorem unlessFaulted_faulted {s : State} {c : Cause} (k : StepResult) (h : s.fault = some c) :
    unlessFaulted s k = .next { s with response := some (.fault c) } := by
  simp [unlessFaulted, h]

theorem withSlot_next {a : SlotIx} {s t : State} {k : StepResult} (h : withSlot a s k = .next t) :
    (∃ c, s.fault = some c ∧ t = { s with response := some (.fault c) }) ∨
    (s.fault = none ∧ s.cfg.accCount ≤ a.toNat ∧ t = { s with fault := some .badSlot, response := some (.fault .badSlot) }) ∨
    (s.fault = none ∧ a.toNat < s.cfg.accCount ∧ k = .next t) := by
  obtain hc | ⟨hf, h⟩ := unlessFaulted_next h
  · exact .inl hc
  · simp only [slotExists, decide_eq_true_eq] at h
    split at h
    · next hs => exact .inr (.inr ⟨hf, hs, h⟩)
    · next hs => exact .inr (.inl ⟨hf, Nat.le_of_not_lt hs, raiseFault_next h⟩)

theorem withSlot_running {a : SlotIx} {s : State} (k : StepResult) (hf : s.fault = none) (ha : a.toNat < s.cfg.accCount) :
    withSlot a s k = k := by
  simp [withSlot, unlessFaulted_running _ hf, slotExists, ha]

theorem withSlot_bad {a : SlotIx} {s : State} (k : StepResult) (hf : s.fault = none) (ha : s.cfg.accCount ≤ a.toNat) :
    withSlot a s k = raiseFault .badSlot s := by
  simp [withSlot, unlessFaulted_running _ hf, slotExists, Nat.not_lt.mpr ha]

theorem withLiveSlot_next {a : SlotIx} {s t : State} {k : StepResult} (h : withLiveSlot a s k = .next t) :
    (∃ c, s.fault = some c ∧ t = { s with response := some (.fault c) }) ∨
    (s.fault = none ∧ s.cfg.accCount ≤ a.toNat ∧ t = { s with fault := some .badSlot, response := some (.fault .badSlot) }) ∨
    (s.fault = none ∧ a.toNat < s.cfg.accCount ∧ s.accValid.get a = false ∧
      t = { s with fault := some .slotNotInitialised, response := some (.fault .slotNotInitialised) }) ∨
    (s.fault = none ∧ s.Live a ∧ k = .next t) := by
  obtain hc | hc | ⟨hf, ha, h⟩ := withSlot_next h
  · exact .inl hc
  · exact .inr (.inl hc)
  · split at h
    · next hv => exact .inr (.inr (.inr ⟨hf, ⟨ha, hv⟩, h⟩))
    · next hv => exact .inr (.inr (.inl ⟨hf, ha, by simpa using hv, raiseFault_next h⟩))

theorem withLiveSlot_running {a : SlotIx} {s : State} (k : StepResult) (hf : s.fault = none) (ha : s.Live a) :
    withLiveSlot a s k = k := by
  simp [withLiveSlot, withSlot_running _ hf ha.1, ha.2]

/-! ### Detection and the table build -/

/-- What `Detect()` can do: nothing when MODE is set, else MODE from HW_LEVEL, and the table with it on the software branch. -/
theorem detect_cases (s : State) :
    (s.mode ≠ .undetected ∧ detect s = s) ∨
    (s.mode = .undetected ∧ s.cfg.hwLevel = .none ∧ detect s = buildTable (writeMode .softwareTable s)) ∨
    (s.mode = .undetected ∧ s.cfg.hwLevel = .word32 ∧ detect s = writeMode .hardwareNarrow s) ∨
    (s.mode = .undetected ∧ s.cfg.hwLevel = .word64 ∧ detect s = writeMode .hardwareWide s) := by
  unfold detect
  cases hm : s.mode <;> cases hh : s.cfg.hwLevel <;> simp

theorem detect_mode (s : State) : (detect s).mode = s.detectedMode := by
  obtain ⟨hm, h⟩ | ⟨hm, hh, h⟩ | ⟨hm, hh, h⟩ | ⟨hm, hh, h⟩ := detect_cases s <;> simp [State.detectedMode, *]

theorem detectedMode_ne (s : State) : s.detectedMode ≠ .undetected := by
  unfold State.detectedMode
  split
  · split <;> simp
  · assumption

/-- After detection MODE is the mode of the strategy. -/
theorem strategyMode_strategyOf (s : State) : strategyMode (strategyOf s) = s.detectedMode := by
  unfold strategyOf State.detectedMode
  cases hm : s.mode <;> cases hh : s.cfg.hwLevel <;> simp [selectStrategy, strategyMode]

theorem lazyBuild_cases (s : State) :
    (s.mode = .softwareTable ∧ s.tableValid = false ∧ lazyBuild s = buildTable s) ∨
    (¬(s.mode = .softwareTable ∧ s.tableValid = false) ∧ lazyBuild s = s) := by
  unfold lazyBuild
  split
  · next h => exact .inl ⟨h.1, h.2, rfl⟩
  · next h => exact .inr ⟨h, rfl⟩

/-- What an update's preparation can do: MODE becomes the detected mode, and the table is either kept or built. -/
theorem prepare_cases (s : State) :
    prepare s = { s with mode := s.detectedMode } ∨
    (s.detectedMode = .softwareTable ∧ prepare s = { s with mode := s.detectedMode, table := builtTable, tableValid := true }) := by
  have hd := detect_mode s
  unfold prepare
  obtain ⟨hm, h⟩ | ⟨hm, hh, h⟩ | ⟨hm, hh, h⟩ | ⟨hm, hh, h⟩ := detect_cases s
  · rw [h] at hd ⊢
    obtain ⟨h1, h2, h3⟩ | ⟨h1, h3⟩ := lazyBuild_cases s
    · refine .inr ⟨by rw [← hd, h1], ?_⟩
      rw [h3, ← hd]; rfl
    · refine .inl ?_
      rw [h3, ← hd]
  · rw [h] at hd ⊢
    simp only [buildTable_mode, writeMode_mode] at hd
    refine .inr ⟨hd.symm, ?_⟩
    rw [← hd]
    simp [lazyBuild, buildTable, writeMode]
  · rw [h] at hd ⊢
    simp only [writeMode_mode] at hd
    refine .inl ?_
    rw [← hd]
    simp [lazyBuild, writeMode]
  · rw [h] at hd ⊢
    simp only [writeMode_mode] at hd
    refine .inl ?_
    rw [← hd]
    simp [lazyBuild, writeMode]

/-- In software mode the table is built once the preparation is done. -/
theorem prepare_table (s : State) (h : s.detectedMode = .softwareTable) : (prepare s).tableValid = true := by
  have hd := detect_mode s
  unfold prepare
  obtain ⟨_, _, h3⟩ | ⟨h1, h3⟩ := lazyBuild_cases (detect s)
  · rw [h3]; rfl
  · rw [h3]
    rw [hd, h] at h1
    simpa using h1

theorem builtTable_ok (s : State) : (buildTable s).TableOk := fun _ i => builtTable_get i

/-- The preparation keeps a built table right. -/
theorem prepare_tableOk {s : State} (h : s.TableOk) : (prepare s).TableOk := by
  obtain e | ⟨_, e⟩ := prepare_cases s <;> rw [e]
  · exact h
  · exact fun _ i => builtTable_get i

@[simp] theorem prepare_mode (s : State) : (prepare s).mode = s.detectedMode := by
  obtain e | ⟨_, e⟩ := prepare_cases s <;> rw [e]
@[simp] theorem prepare_acc (s : State) : (prepare s).acc = s.acc := by
  obtain e | ⟨_, e⟩ := prepare_cases s <;> rw [e]
@[simp] theorem prepare_accValid (s : State) : (prepare s).accValid = s.accValid := by
  obtain e | ⟨_, e⟩ := prepare_cases s <;> rw [e]
@[simp] theorem prepare_fault (s : State) : (prepare s).fault = s.fault := by
  obtain e | ⟨_, e⟩ := prepare_cases s <;> rw [e]
@[simp] theorem prepare_cfg (s : State) : (prepare s).cfg = s.cfg := by
  obtain e | ⟨_, e⟩ := prepare_cases s <;> rw [e]
@[simp] theorem prepare_mem (s : State) : (prepare s).mem = s.mem := by
  obtain e | ⟨_, e⟩ := prepare_cases s <;> rw [e]
@[simp] theorem prepare_port (s : State) : (prepare s).port = s.port := by
  obtain e | ⟨_, e⟩ := prepare_cases s <;> rw [e]
@[simp] theorem prepare_response (s : State) : (prepare s).response = s.response := by
  obtain e | ⟨_, e⟩ := prepare_cases s <;> rw [e]
@[simp] theorem prepare_position (s : State) : (prepare s).position = s.position := by
  obtain e | ⟨_, e⟩ := prepare_cases s <;> rw [e]

/-! ### The port -/

/-- What the head of the port can be. -/
theorem fetch_cases (s : State) :
    (s.port = [] ∧ fetch s = .waiting) ∨
    (∃ x b rest, s.port = .hostWrite x b :: rest ∧ fetch s = .hostWrite x b { s with port := rest }) ∨
    (∃ c rest i, s.port = .command c :: rest ∧ decode s.cfg.addrW c = .ok i ∧ fetch s = .command i { s with port := rest }) ∨
    (∃ c rest, s.port = .command c :: rest ∧ decode s.cfg.addrW c = .error .illegalCommand ∧
      fetch s = .illegal { s with port := rest }) ∨
    (∃ c rest e f, s.port = .command c :: rest ∧ decode s.cfg.addrW c = .error e ∧ e ≠ .illegalCommand ∧
      fetch s = .malformed f) := by
  unfold fetch
  cases hp : s.port with
  | nil => simp
  | cons ev rest =>
    cases ev with
    | hostWrite x b => exact .inr (.inl ⟨x, b, rest, rfl, rfl⟩)
    | command c =>
      cases hd : decode s.cfg.addrW c with
      | ok i => exact .inr (.inr (.inl ⟨c, rest, i, rfl, hd, by simp [hd]⟩))
      | error e => cases e <;> simp [hd]

/-- What a step that answers a next state can have done. -/
theorem step_next {s t : State} (h : step s = .next t) :
    (s.port = [] ∧ t = s) ∨
    (∃ x b rest, s.port = .hostWrite x b :: rest ∧ t = { s with port := rest, mem := hostWriteByte s.mem x b }) ∨
    (∃ c rest i, s.port = .command c :: rest ∧ decode s.cfg.addrW c = .ok i ∧ exec i { s with port := rest } = .next t) ∨
    (∃ c rest, s.port = .command c :: rest ∧ decode s.cfg.addrW c = .error .illegalCommand ∧
      illegalCommand { s with port := rest } = .next t) := by
  unfold step at h
  obtain ⟨hp, e⟩ | ⟨x, b, rest, hp, e⟩ | ⟨c, rest, i, hp, hd, e⟩ | ⟨c, rest, hp, hd, e⟩ | ⟨c, rest, er, f, hp, hd, hne, e⟩ :=
    fetch_cases s <;> rw [e] at h
  · exact .inl ⟨hp, by simpa using h.symm⟩
  · exact .inr (.inl ⟨x, b, rest, hp, by simpa [applyHostWrite] using h.symm⟩)
  · exact .inr (.inr (.inl ⟨c, rest, i, hp, hd, h⟩))
  · exact .inr (.inr (.inr ⟨c, rest, hp, hd, h⟩))
  · simp at h

end Sys2Proof.Machine
end

