-- ==== Sys2Proof/Laws/Exec.lean ====
section
/-! SUPPORT. What executing a command can do, said once: it answers the recorded fault, raises one, is rejected out of range, or
has its effect and completes. Proofs over all commands take these four cases. -/

namespace Sys2Proof.Machine

/-- The effect of a command whose checks have all passed: its RESULT and the state it leaves, before the response. -/
def Effect : Instr → State → Option Word → State → Prop
  | .accNew a, s, r, u => a.toNat < s.cfg.accCount ∧ r = none ∧ u = setValid a (writeAcc a initReg (detect s))
  | .setMode m, s, r, u => supported m s.cfg.hwLevel = true ∧ r = none ∧ u = writeMode m s
  | .buildTable, s, r, u => r = none ∧ u = buildTable s
  | .update a base len off cnt, s, r, u =>
      s.Live a ∧ off + cnt ≤ len ∧ r = none ∧
        ∃ bytes, regionBytes s (updateStart base off) cnt = some bytes ∧ u = foldInto a bytes s
  | .updateOne a b, s, r, u => s.Live a ∧ r = none ∧ u = foldByteInto a b s
  | .updateRaw a ptr cnt, s, r, u =>
      s.Live a ∧ r = none ∧ ∃ bytes, regionBytes s ptr cnt = some bytes ∧ u = foldInto a bytes s
  | .finalize a, s, r, u => s.Live a ∧ r = some (fin (readAcc s a)) ∧ u = s
  | .getMode, s, r, u => r = some ((modeBits s.mode).setWidth 32) ∧ u = s
  | .tableRead i, s, r, u => s.tableValid = true ∧ r = some (s.table.get i) ∧ u = s

/-- The check of the command itself that a raised fault stands for (60_exceptions.md R206, steps 3 to 5). -/
def Raises : Instr → State → Cause → Prop
  | .accNew a, s, c => c = .badSlot ∧ s.cfg.accCount ≤ a.toNat
  | .setMode m, s, c => c = .modeUnsupported ∧ supported m s.cfg.hwLevel = false
  | .buildTable, _, _ => False
  | .update a base len off cnt, s, c =>
      (c = .badSlot ∧ s.cfg.accCount ≤ a.toNat) ∨
      (c = .slotNotInitialised ∧ a.toNat < s.cfg.accCount ∧ s.accValid.get a = false) ∨
      (c = .memoryFault ∧ s.Live a ∧ off + cnt ≤ len ∧ regionBytes s (updateStart base off) cnt = none)
  | .updateOne a _, s, c =>
      (c = .badSlot ∧ s.cfg.accCount ≤ a.toNat) ∨
      (c = .slotNotInitialised ∧ a.toNat < s.cfg.accCount ∧ s.accValid.get a = false)
  | .updateRaw a ptr cnt, s, c =>
      (c = .badSlot ∧ s.cfg.accCount ≤ a.toNat) ∨
      (c = .slotNotInitialised ∧ a.toNat < s.cfg.accCount ∧ s.accValid.get a = false) ∨
      (c = .memoryFault ∧ s.Live a ∧ regionBytes s ptr cnt = none)
  | .finalize a, s, c =>
      (c = .badSlot ∧ s.cfg.accCount ≤ a.toNat) ∨
      (c = .slotNotInitialised ∧ a.toNat < s.cfg.accCount ∧ s.accValid.get a = false)
  | .getMode, _, _ => False
  | .tableRead _, s, c => c = .tableNotBuilt ∧ s.tableValid = false

/-- The commands a rejection can answer: UPDATE out of bounds (60_exceptions.md R205). -/
def Rejects : Instr → State → Prop
  | .accNew _, _ => False
  | .setMode _, _ => False
  | .buildTable, _ => False
  | .update a _ len off cnt, s => s.Live a ∧ len < off + cnt
  | .updateOne _ _, _ => False
  | .updateRaw _ _ _, _ => False
  | .finalize _, _ => False
  | .getMode, _ => False
  | .tableRead _, _ => False

/-- The four things a command can do. -/
theorem exec_next {i : Instr} {s t : State} (h : exec i s = .next t) :
    (∃ c, s.fault = some c ∧ t = { s with response := some (.fault c) }) ∨
    (s.fault = none ∧ ∃ c, Raises i s c ∧ t = { s with fault := some c, response := some (.fault c) }) ∨
    (s.fault = none ∧ Rejects i s ∧ t = { s with response := some .outOfRange, position := s.position + 1 }) ∨
    (s.fault = none ∧ ∃ r u, Effect i s r u ∧ t = { u with response := some (.ok r), position := u.position + 1 }) := by
  cases i with
  | accNew a =>
    obtain hc | ⟨hf, ha, e⟩ | ⟨hf, ha, e⟩ := withSlot_next h
    · exact .inl hc
    · exact .inr (.inl ⟨hf, _, ⟨rfl, ha⟩, e⟩)
    · exact .inr (.inr (.inr ⟨hf, _, _, ⟨ha, rfl, rfl⟩, complete_next e⟩))
  | setMode m =>
    obtain hc | ⟨hf, e⟩ := unlessFaulted_next h
    · exact .inl hc
    · split at e
      · next hs => exact .inr (.inr (.inr ⟨hf, _, _, ⟨hs, rfl, rfl⟩, complete_next e⟩))
      · next hs => exact .inr (.inl ⟨hf, _, ⟨rfl, by simpa using hs⟩, raiseFault_next e⟩)
  | buildTable =>
    obtain hc | ⟨hf, e⟩ := unlessFaulted_next h
    · exact .inl hc
    · exact .inr (.inr (.inr ⟨hf, _, _, ⟨rfl, rfl⟩, complete_next e⟩))
  | update a base len off cnt =>
    obtain hc | ⟨hf, ha, e⟩ | ⟨hf, ha, hv, e⟩ | ⟨hf, hl, e⟩ := withLiveSlot_next h
    · exact .inl hc
    · exact .inr (.inl ⟨hf, _, .inl ⟨rfl, ha⟩, e⟩)
    · exact .inr (.inl ⟨hf, _, .inr (.inl ⟨rfl, ha, hv⟩), e⟩)
    · simp only [outOfBounds, decide_eq_true_eq] at e
      split at e
      · next hb => exact .inr (.inr (.inl ⟨hf, ⟨hl, hb⟩, rejectOutOfRange_next e⟩))
      · next hb =>
        split at e
        · next hr => exact .inr (.inl ⟨hf, _, .inr (.inr ⟨rfl, hl, Nat.le_of_not_lt hb, hr⟩), raiseFault_next e⟩)
        · next bytes hr =>
          exact .inr (.inr (.inr ⟨hf, _, _, ⟨hl, Nat.le_of_not_lt hb, rfl, bytes, hr, rfl⟩, complete_next e⟩))
  | updateOne a b =>
    obtain hc | ⟨hf, ha, e⟩ | ⟨hf, ha, hv, e⟩ | ⟨hf, hl, e⟩ := withLiveSlot_next h
    · exact .inl hc
    · exact .inr (.inl ⟨hf, _, .inl ⟨rfl, ha⟩, e⟩)
    · exact .inr (.inl ⟨hf, _, .inr ⟨rfl, ha, hv⟩, e⟩)
    · exact .inr (.inr (.inr ⟨hf, _, _, ⟨hl, rfl, rfl⟩, complete_next e⟩))
  | updateRaw a ptr cnt =>
    obtain hc | ⟨hf, ha, e⟩ | ⟨hf, ha, hv, e⟩ | ⟨hf, hl, e⟩ := withLiveSlot_next h
    · exact .inl hc
    · exact .inr (.inl ⟨hf, _, .inl ⟨rfl, ha⟩, e⟩)
    · exact .inr (.inl ⟨hf, _, .inr (.inl ⟨rfl, ha, hv⟩), e⟩)
    · split at e
      · next hr => exact .inr (.inl ⟨hf, _, .inr (.inr ⟨rfl, hl, hr⟩), raiseFault_next e⟩)
      · next bytes hr => exact .inr (.inr (.inr ⟨hf, _, _, ⟨hl, rfl, bytes, hr, rfl⟩, complete_next e⟩))
  | finalize a =>
    obtain hc | ⟨hf, ha, e⟩ | ⟨hf, ha, hv, e⟩ | ⟨hf, hl, e⟩ := withLiveSlot_next h
    · exact .inl hc
    · exact .inr (.inl ⟨hf, _, .inl ⟨rfl, ha⟩, e⟩)
    · exact .inr (.inl ⟨hf, _, .inr ⟨rfl, ha, hv⟩, e⟩)
    · exact .inr (.inr (.inr ⟨hf, _, _, ⟨hl, rfl, rfl⟩, complete_next e⟩))
  | getMode =>
    obtain hc | ⟨hf, e⟩ := unlessFaulted_next h
    · exact .inl hc
    · exact .inr (.inr (.inr ⟨hf, _, _, ⟨rfl, rfl⟩, complete_next e⟩))
  | tableRead i =>
    obtain hc | ⟨hf, e⟩ := unlessFaulted_next h
    · exact .inl hc
    · split at e
      · next hv => exact .inr (.inr (.inr ⟨hf, _, _, ⟨hv, rfl, rfl⟩, complete_next e⟩))
      · next hv => exact .inr (.inl ⟨hf, _, ⟨rfl, by simpa using hv⟩, raiseFault_next e⟩)

/-- An effect leaves the configuration, host memory, the port, FAULT and the host's fields as they were. -/
theorem Effect.frame {i : Instr} {s u : State} {r : Option Word} (h : Effect i s r u) :
    u.cfg = s.cfg ∧ u.mem = s.mem ∧ u.port = s.port ∧ u.fault = s.fault ∧ u.position = s.position := by
  have hd : (detect s).cfg = s.cfg ∧ (detect s).mem = s.mem ∧ (detect s).port = s.port ∧ (detect s).fault = s.fault ∧
      (detect s).position = s.position := by
    obtain ⟨_, e⟩ | ⟨_, _, e⟩ | ⟨_, _, e⟩ | ⟨_, _, e⟩ := detect_cases s <;> rw [e] <;> simp
  cases i with
  | accNew a => obtain ⟨_, _, rfl⟩ := h; simpa using hd
  | setMode m => obtain ⟨_, _, rfl⟩ := h; simp
  | buildTable => obtain ⟨_, rfl⟩ := h; simp
  | update a base len off cnt => obtain ⟨_, _, _, _, _, rfl⟩ := h; simp [foldInto]
  | updateOne a b => obtain ⟨_, _, rfl⟩ := h; simp [foldByteInto]
  | updateRaw a ptr cnt => obtain ⟨_, _, _, _, rfl⟩ := h; simp [foldInto]
  | finalize a => obtain ⟨_, _, rfl⟩ := h; simp
  | getMode => obtain ⟨_, rfl⟩ := h; simp
  | tableRead i => obtain ⟨_, _, rfl⟩ := h; simp

/-! ### Sequences of commands -/

@[simp] theorem execAll_nil (s : State) : execAll [] s = .next s := rfl

/-- A sequence answers a next state exactly when its first command does and the rest does from there. -/
theorem execAll_cons_next {i : Instr} {is : List Instr} {s t : State} :
    execAll (i :: is) s = .next t ↔ ∃ u, exec i s = .next u ∧ execAll is u = .next t := by
  cases h : exec i s <;> simp [execAll, h]

theorem execAll_append_next {is js : List Instr} {s t : State} :
    execAll (is ++ js) s = .next t ↔ ∃ u, execAll is s = .next u ∧ execAll js u = .next t := by
  induction is generalizing s with
  | nil => simp
  | cons i is ih =>
    simp only [List.cons_append, execAll_cons_next, ih]
    constructor
    · rintro ⟨v, hv, u, hu, h⟩
      exact ⟨u, ⟨v, hv, hu⟩, h⟩
    · rintro ⟨u, ⟨v, hv, hu⟩, h⟩
      exact ⟨v, hv, u, hu, h⟩

end Sys2Proof.Machine
end

