-- ==== Sys2Proof/Laws/Memory.lean ====
section
/-! SUPPORT. Host memory: the canonical form is kept, a read after a write, and what reading a run of bytes gives. -/

namespace Sys2Proof.Machine

theorem hostWriteByte_wfFrom (m : List Host.Cell) (x : Nat) (b : Byte) :
    ∀ lo, Memory.wfFrom lo m = true → Memory.wfFrom lo (hostWriteByte m x b) = true := by
  induction m with
  | nil => intro lo h; exact h
  | cons c rest ih =>
    intro lo h
    simp only [Memory.wfFrom, Bool.and_eq_true, decide_eq_true_eq] at h
    unfold hostWriteByte
    split
    · next e => subst e; simp [Memory.wfFrom, h.1, h.2]
    · simp [Memory.wfFrom, h.1, ih _ h.2]

/-- The one operation that changes memory keeps the canonical form. -/
theorem hostWriteByte_wf {m : List Host.Cell} (x : Nat) (b : Byte) (h : Memory.wf m = true) :
    Memory.wf (hostWriteByte m x b) = true :=
  hostWriteByte_wfFrom m x b 0 h

theorem readByte_hostWriteByte_same (m : List Host.Cell) (x : Nat) (b : Byte) :
    readByte (hostWriteByte m x b) x = if readable m x then some b else none := by
  induction m with
  | nil => rfl
  | cons c rest ih =>
    unfold hostWriteByte
    by_cases e : c.1 = x
    · simp [e, readByte, readable]
    · simp [e, readByte, readable] at ih ⊢
      exact ih

theorem readByte_hostWriteByte_ne (m : List Host.Cell) {x y : Nat} (b : Byte) (h : y ≠ x) :
    readByte (hostWriteByte m x b) y = readByte m y := by
  induction m with
  | nil => rfl
  | cons c rest ih =>
    unfold hostWriteByte
    by_cases e : c.1 = x
    · have : c.1 ≠ y := fun f => h (f.symm.trans e)
      simp [e, readByte, Ne.symm h]
    · by_cases f : c.1 = y
      · rw [if_neg e]
        simp [readByte, f]
      · simp [e, readByte, f, ih]

/-- Reading a run of bytes gives exactly the bytes at its addresses. -/
theorem readBytes_eq_some (m : List Host.Cell) (p n : Nat) (bytes : List Byte) :
    readBytes m p n = some bytes ↔
      bytes.length = n ∧ ∀ (k : Nat) (h : k < bytes.length), readByte m (p + k) = some bytes[k] := by
  induction n generalizing p bytes with
  | zero =>
    cases bytes with
    | nil => simp [readBytes]
    | cons b rest => simp [readBytes]
  | succ n ih =>
    cases bytes with
    | nil =>
      simp only [readBytes]
      split
      · simp
      · split <;> simp
    | cons b rest =>
      have step : readBytes m p (n + 1) = some (b :: rest) ↔ readByte m p = some b ∧ readBytes m (p + 1) n = some rest := by
        simp only [readBytes]
        cases hb : readByte m p with
        | none => simp
        | some b' =>
          cases hr : readBytes m (p + 1) n with
          | none => simp
          | some rest' => simp
      rw [step, ih]
      constructor
      · rintro ⟨h0, hl, hr⟩
        refine ⟨by simp [hl], ?_⟩
        intro k hk
        cases k with
        | zero => simpa using h0
        | succ k =>
          have := hr k (by simpa using hk)
          simpa [Nat.add_assoc, Nat.add_comm 1 k] using this
      · rintro ⟨hl, hr⟩
        refine ⟨hr 0 (Nat.zero_lt_succ _), by simpa using hl, ?_⟩
        intro k hk
        have := hr (k + 1) (by simpa using hk)
        simpa [Nat.add_assoc, Nat.add_comm 1 k] using this

theorem readBytes_length {m : List Host.Cell} {p n : Nat} {bytes : List Byte} (h : readBytes m p n = some bytes) :
    bytes.length = n :=
  ((readBytes_eq_some m p n bytes).mp h).1

end Sys2Proof.Machine
end

