-- ==== Sys2Proof/Laws/PerInstr.lean ====
section
/-! SUPPORT. The family EncodeRow: each command's encoding lies in that command's own row of 30_encoding.md R75, and has the number of
argument words its opcode takes (R74, R81). One lemma per constructor. -/

namespace Sys2Proof.Laws.EncodeRow

/-- The encoding of `i` matches the row named by `i`'s mnemonic and carries `nargs(OP)` argument words. -/
def Statement (i : Instr) : Prop :=
  (∃ r ∈ opcodeRows, r.mnemonic = mnemonicOf i ∧ rowMatches r (encode i).word = true) ∧
    (encode i).args.length = nargs (opField (encode i).word)

theorem accNew (a : SlotIx) : Statement (.accNew a) := by
  refine ⟨⟨{ mnemonic := "ACC_NEW", pattern := 0x10000000, mask := 0xFFFFFF00 }, by simp [opcodeRows], rfl, ?_⟩, ?_⟩
  · simp only [rowMatches, encode, cmdWord, beq_iff_eq]
    ext k hk
    interval_cases k <;> simp
  · simp [encode, opField_cmdWord, nargs]

theorem setMode (m : Mode) : Statement (.setMode m) := by
  refine ⟨⟨{ mnemonic := "SET_MODE", pattern := 0x20000000, mask := 0xF3FFFFFF }, by simp [opcodeRows], rfl, ?_⟩, ?_⟩
  · cases m <;> decide
  · simp [encode, opField_cmdWord, nargs]

theorem buildTable : Statement .buildTable := by
  refine ⟨⟨{ mnemonic := "BUILD_TABLE", pattern := 0x30000000, mask := 0xFFFFFFFF }, by simp [opcodeRows], rfl, ?_⟩, ?_⟩
  · decide
  · simp [encode, opField_cmdWord, nargs]

theorem update (a : SlotIx) (base len off cnt : Nat) : Statement (.update a base len off cnt) := by
  refine ⟨⟨{ mnemonic := "UPDATE", pattern := 0x40000000, mask := 0xFFFFFF00 }, by simp [opcodeRows], rfl, ?_⟩, ?_⟩
  · simp only [rowMatches, encode, cmdWord, beq_iff_eq]
    ext k hk
    interval_cases k <;> simp
  · simp [encode, opField_cmdWord, nargs]

theorem updateOne (a : SlotIx) (b : Byte) : Statement (.updateOne a b) := by
  refine ⟨⟨{ mnemonic := "UPDATE_ONE", pattern := 0x50000000, mask := 0xFFFF0000 }, by simp [opcodeRows], rfl, ?_⟩, ?_⟩
  · simp only [rowMatches, encode, cmdWord, beq_iff_eq]
    ext k hk
    interval_cases k <;> simp
  · simp [encode, opField_cmdWord, nargs]

theorem updateRaw (a : SlotIx) (ptr cnt : Nat) : Statement (.updateRaw a ptr cnt) := by
  refine ⟨⟨{ mnemonic := "UPDATE_RAW", pattern := 0x60000000, mask := 0xFFFFFF00 }, by simp [opcodeRows], rfl, ?_⟩, ?_⟩
  · simp only [rowMatches, encode, cmdWord, beq_iff_eq]
    ext k hk
    interval_cases k <;> simp
  · simp [encode, opField_cmdWord, nargs]

theorem finalize (a : SlotIx) : Statement (.finalize a) := by
  refine ⟨⟨{ mnemonic := "FINALIZE", pattern := 0x70000000, mask := 0xFFFFFF00 }, by simp [opcodeRows], rfl, ?_⟩, ?_⟩
  · simp only [rowMatches, encode, cmdWord, beq_iff_eq]
    ext k hk
    interval_cases k <;> simp
  · simp [encode, opField_cmdWord, nargs]

theorem getMode : Statement .getMode := by
  refine ⟨⟨{ mnemonic := "GET_MODE", pattern := 0x80000000, mask := 0xFFFFFFFF }, by simp [opcodeRows], rfl, ?_⟩, ?_⟩
  · decide
  · simp [encode, opField_cmdWord, nargs]

theorem tableRead (i : Byte) : Statement (.tableRead i) := by
  refine ⟨⟨{ mnemonic := "TABLE_READ", pattern := 0x90000000, mask := 0xFFFF00FF }, by simp [opcodeRows], rfl, ?_⟩, ?_⟩
  · simp only [rowMatches, encode, cmdWord, beq_iff_eq]
    ext k hk
    interval_cases k <;> simp
  · simp [encode, opField_cmdWord, nargs]

end Sys2Proof.Laws.EncodeRow
end

