-- ==== Sys2Proof/Tests/Slice0.lean ====
section
/-! SUPPORT. Checks of the model against words and values of spec/ (95_test_vectors.md and the rules' worked examples), the ill-formed
terms WellFormed refuses, and for each statement with hypotheses a witness that meets them. -/

namespace Sys2Proof.Tests

open Sys2Proof Sys2Proof.Machine

/-! ### Helpers -/

/-- The memory of 95_test_vectors.md section 3.4: "abcd" at 0x1000, "123456789" at 0x2000, all else unreadable. -/
def vectorMem : List Host.Cell :=
  [(0x1000, 0x61), (0x1001, 0x62), (0x1002, 0x63), (0x1003, 0x64)] ++
  [(0x2000, 0x31), (0x2001, 0x32), (0x2002, 0x33), (0x2003, 0x34), (0x2004, 0x35), (0x2005, 0x36), (0x2006, 0x37),
    (0x2007, 0x38), (0x2008, 0x39)]

/-- ACC_COUNT = 4, as in section 3.4. -/
def cfgOf (h : HwLevel) (w : AddrWidth) : Config := { hwLevel := h, accCount := 4, addrW := w }

/-- Reset on that host, ADDR_W = 64, with commands on the port. -/
def start (h : HwLevel) (cs : List Command) : State := State.resetWith (cfgOf h .w64) vectorMem (cs.map .command)

/-- That state with a live slot and a MODE. -/
def live (a : SlotIx) (v : Word) (m : Mode) (s : State) : State := writeMode m (setValid a (writeAcc a v s))

/-- What a vector lists. -/
structure Seen where
  response : Option Response
  mode : Mode
  tableValid : Bool
  acc : Word
  fault : Option Cause
  deriving DecidableEq, Repr

/-- What a vector lists of slot `a` after a step. -/
def look (a : SlotIx) (r : StepResult) : Option Seen :=
  match r with
  | .next t => some { response := t.response, mode := t.mode, tableValid := t.tableValid, acc := t.acc.get a, fault := t.fault }
  | .fault _ => none
  | .refused _ => none

/-- The state a step answers, or the state itself where it stops. -/
def stateAfter (s : State) (r : StepResult) : State :=
  match r with
  | .next t => t
  | .fault _ => s
  | .refused _ => s

/-! ### WellFormed refuses an argument that does not fit ADDR_W, one term for each check -/

theorem test_wf_update_base : (Instr.update 0 (2 ^ 32) 0 0 0).wf .w32 = false := by decide
theorem test_wf_update_len : (Instr.update 0 0 (2 ^ 64) 0 0).wf .w64 = false := by decide
theorem test_wf_update_off : (Instr.update 0 0 0 (2 ^ 32) 0).wf .w32 = false := by decide
theorem test_wf_update_cnt : (Instr.update 0 0 0 0 (2 ^ 64)).wf .w64 = false := by decide
theorem test_wf_raw_ptr : (Instr.updateRaw 0 (2 ^ 32) 0).wf .w32 = false := by decide
theorem test_wf_raw_cnt : (Instr.updateRaw 0 0 (2 ^ 64)).wf .w64 = false := by decide
theorem test_wf_top : (Instr.updateRaw 0 (2 ^ 32 - 1) 1).wf .w32 = true := by decide

/-! ### Decoding: words written out bit by bit from R71 and R74 (`OOOO MM ZZZZZZZZZZ IIIIIIII AAAAAAAA`) -/

theorem test_decode_acc_new : decode .w64 { word := 0b00010000000000000000000000000011, args := [] } = .ok (.accNew 3) := by decide
theorem test_decode_set_mode :
    decode .w64 { word := 0b00101000000000000000000000000000, args := [] } = .ok (.setMode .hardwareNarrow) := by decide
theorem test_decode_build_table : decode .w64 { word := 0b00110000000000000000000000000000, args := [] } = .ok .buildTable := by decide
theorem test_decode_update :
    decode .w32 { word := 0b01000000000000000000000000000101, args := [0x1000, 4, 1, 3] } = .ok (.update 5 0x1000 4 1 3) := by decide
theorem test_decode_update_one :
    decode .w64 { word := 0b01010000000000000110000100000010, args := [] } = .ok (.updateOne 2 0x61) := by decide
theorem test_decode_update_raw :
    decode .w64 { word := 0b01100000000000000000000000000001, args := [0x2000, 9] } = .ok (.updateRaw 1 0x2000 9) := by decide
theorem test_decode_finalize : decode .w64 { word := 0b01110000000000000000000011111111, args := [] } = .ok (.finalize 255) := by decide
theorem test_decode_get_mode : decode .w64 { word := 0b10000000000000000000000000000000, args := [] } = .ok .getMode := by decide
theorem test_decode_table_read :
    decode .w64 { word := 0b10010000000000001000000000000000, args := [] } = .ok (.tableRead 0x80) := by decide

/-- V6, V12, V35-V38, V40: illegal words. -/
theorem test_decode_illegal :
    ([0x10000100, 0x2C000001, 0x00000000, 0xA0000000, 0x30000001, 0x10010000, 0x50FF0005] : List Word).map
      (fun x => decode .w64 { word := x, args := [] }) = List.replicate 7 (.error .illegalCommand) := by decide +kernel

/-- Argument words that are not those of R70. -/
theorem test_decode_arguments :
    decode .w64 { word := 0x40000000, args := [1, 2, 3] } = .error .missingArguments ∧
    decode .w64 { word := 0x60000000, args := [1, 2, 3] } = .error .extraArguments ∧
    decode .w64 { word := 0x80000000, args := [1] } = .error .extraArguments ∧
    decode .w32 { word := 0x60000000, args := [0x100000000, 0] } = .error .argumentTooWide := by decide

/-- The host's numbering: argument words follow the command word's 32 bits. -/
theorem test_numbered_command :
    decodeTableWord 32 0x40000000 = some (.update 0 0 0 0 0) ∧
    decodeTableWord 160 (0x60000001 + 0x2001 * 2 ^ 32 + 8 * 2 ^ 96) = some (.updateRaw 1 0x2001 8) ∧
    decodeTableWord 32 0x00000000 = none := by decide +kernel

/-- P1, line 2, as its commands. -/
theorem test_assemble_p1 :
    assemble .w64 "    crc.all a0, 0x1000, 76   ; = crc.update a0, 0x1000, 76, 0, 76" =
      some [{ word := 0x40000000, args := [0x1000, 0x4C, 0, 0x4C] }] := by decide +kernel

/-! ### The datapath (section 3.1, 3.3) -/

/-- S9: the reflected constant is the bit reversal of 0x1EDC6F41 (R2). -/
theorem test_poly_reflected : (0x1EDC6F41 : Word).reverse = poly := by decide +kernel

/-- X16-X24. -/
theorem test_word_folds :
    hwW32 0 1 = 0xDD45AAB8 ∧ hwW32 0xFFFFFFFF 0x64636261 = 0x6D37F5CE ∧ hwW32 0x12345678 0x12345678 = 0 ∧
    hwW64 0 1 = 0x493C7D27 ∧ hwW64 0xFFFFFFFF 0x6867666564636261 = 0xF56BDE48 ∧ hwW64 0xFFFFFFFF 0x00000000FFFFFFFF = 0 := by
  decide +kernel

/-- W13: 13 bytes in the three modes, 3 words and 1 byte, 1 word and 5 bytes. -/
theorem test_paths_w13 :
    ∀ m ∈ [Strategy.softwareTable, .hardwareNarrow, .hardwareWide],
      path builtTable m initReg [0x61, 0x62, 0x63, 0x64, 0x65, 0x66, 0x67, 0x68, 0x69, 0x6A, 0x6B, 0x6C, 0x6D] = 0xA0240887 := by
  decide +kernel

/-! ### The commands, one step each (section 3.4) -/

/-- V1.1. -/
theorem test_acc_new_software :
    look 0 (step (start .none [{ word := 0x10000000, args := [] }])) =
      some ⟨some (.ok none), .softwareTable, true, 0xFFFFFFFF, none⟩ := by decide +kernel

/-- V3.1 and V5.1. -/
theorem test_acc_new_wide :
    look 0 (step (start .word64 [{ word := 0x10000000, args := [] }])) =
      some ⟨some (.ok none), .hardwareWide, false, 0xFFFFFFFF, none⟩ ∧
    look 4 (step (start .word64 [{ word := 0x10000004, args := [] }])) =
      some ⟨some (.fault .badSlot), .undetected, false, 0, some .badSlot⟩ := by decide +kernel

/-- V7.1. -/
theorem test_set_mode :
    look 0 (step (start .word64 [{ word := 0x28000000, args := [] }])) =
      some ⟨some (.ok none), .hardwareNarrow, false, 0, none⟩ := by decide +kernel

/-- V8.1. -/
theorem test_set_mode_unsupported :
    look 0 (step (start .word32 [{ word := 0x2C000000, args := [] }])) =
      some ⟨some (.fault .modeUnsupported), .undetected, false, 0, some .modeUnsupported⟩ := by decide +kernel

/-- V14.1. -/
theorem test_build_table :
    look 0 (step (start .word64 [{ word := 0x30000000, args := [] }])) = some ⟨some (.ok none), .undetected, true, 0, none⟩ := by
  decide +kernel

/-- V14.4. -/
theorem test_table_read :
    look 0 (step (buildTable (start .word64 [{ word := 0x9000FF00, args := [] }]))) =
      some ⟨some (.ok (some 0xAD7D5351)), .undetected, true, 0, none⟩ := by decide +kernel

/-- V13.1. -/
theorem test_table_read_not_built :
    look 0 (step (start .word64 [{ word := 0x90000100, args := [] }])) =
      some ⟨some (.fault .tableNotBuilt), .undetected, false, 0, some .tableNotBuilt⟩ := by decide +kernel

/-- V16.3: software mode with the table not built. -/
theorem test_update_one_builds :
    look 0 (step (live 0 initReg .softwareTable (start .word64 [{ word := 0x50006100, args := [] }]))) =
      some ⟨some (.ok none), .softwareTable, true, 0x3E2FBCCF, none⟩ := by decide +kernel

/-- V11.4: detection by an update. -/
theorem test_update_one_detects :
    look 0 (step (live 0 initReg .undetected (start .word64 [{ word := 0x50006100, args := [] }]))) =
      some ⟨some (.ok none), .hardwareWide, false, 0x3E2FBCCF, none⟩ := by decide +kernel

/-- V20.2 and V22.2. -/
theorem test_update :
    look 0 (step (live 0 initReg .hardwareNarrow (start .word32 [{ word := 0x40000000, args := [0x1000, 4, 0, 4] }]))) =
      some ⟨some (.ok none), .hardwareNarrow, false, 0x6D37F5CE, none⟩ ∧
    look 0 (step (live 0 initReg .hardwareNarrow (start .word32 [{ word := 0x40000000, args := [0x1000, 4, 1, 4] }]))) =
      some ⟨some .outOfRange, .hardwareNarrow, false, 0xFFFFFFFF, none⟩ := by decide +kernel

/-- V24.2 and V26.2. -/
theorem test_update_region :
    look 0 (step (live 0 initReg .hardwareNarrow (start .word32 [{ word := 0x40000000, args := [0x1000, 8, 0, 8] }]))) =
      some ⟨some (.fault .memoryFault), .hardwareNarrow, false, 0xFFFFFFFF, some .memoryFault⟩ ∧
    look 0 (step (live 0 initReg .softwareTable (start .none [{ word := 0x40000000, args := [0x2000, 9, 2, 7] }]))) =
      some ⟨some (.ok none), .softwareTable, true, 0x6C0E9BF8, none⟩ := by decide +kernel

/-- V28.2 and V31.2. -/
theorem test_update_raw :
    look 1 (step (live 1 initReg .hardwareWide (start .word64 [{ word := 0x60000001, args := [0x2000, 9] }]))) =
      some ⟨some (.ok none), .hardwareWide, false, 0x1CF96D7C, none⟩ ∧
    look 1 (step (live 1 initReg .hardwareWide (start .word64 [{ word := 0x60000001, args := [0xFFFFFFFFFFFFFFFF, 2] }]))) =
      some ⟨some (.fault .memoryFault), .hardwareWide, false, 0xFFFFFFFF, some .memoryFault⟩ := by decide +kernel

/-- V42: "ab" at the top of a 32-bit space. -/
def topState : State :=
  live 0 initReg .hardwareNarrow
    (State.resetWith (cfgOf .word32 .w32) [(0xFFFFFFFE, 0x61), (0xFFFFFFFF, 0x62)]
      [.command { word := 0x60000000, args := [0xFFFFFFFE, 2] }])

/-- V42.2. -/
theorem test_update_raw_top :
    look 0 (step topState) = some ⟨some (.ok none), .hardwareNarrow, false, 0x1D5DD6C9, none⟩ := by decide +kernel

/-- V17.3 and V33.1. -/
theorem test_finalize :
    look 0 (step (live 0 0x3E2FBCCF .softwareTable (start .none [{ word := 0x70000000, args := [] }]))) =
      some ⟨some (.ok (some 0xC1D04330)), .softwareTable, false, 0x3E2FBCCF, none⟩ ∧
    look 2 (step (start .word64 [{ word := 0x70000002, args := [] }])) =
      some ⟨some (.fault .slotNotInitialised), .undetected, false, 0, some .slotNotInitialised⟩ := by decide +kernel

/-- V4.1 and V4.3. -/
theorem test_get_mode :
    look 0 (step (start .word64 [{ word := 0x80000000, args := [] }])) =
      some ⟨some (.ok (some 0)), .undetected, false, 0, none⟩ ∧
    look 0 (step (writeMode .hardwareWide (start .word64 [{ word := 0x80000000, args := [] }]))) =
      some ⟨some (.ok (some 3)), .hardwareWide, false, 0, none⟩ := by decide +kernel

/-- V39: an illegal word, then a legal command on the faulted block. -/
theorem test_illegal_and_sticky :
    look 0 (step (start .word64 [{ word := 0, args := [] }])) =
      some ⟨some (.fault .illegalCommand), .undetected, false, 0, some .illegalCommand⟩ ∧
    look 0 (step (stateAfter (start .word64 []) (step (start .word64 [{ word := 0, args := [] }, { word := 0x10000000, args := [] }])))) =
      some ⟨some (.fault .illegalCommand), .undetected, false, 0, some .illegalCommand⟩ := by decide +kernel

/-- V41: the slot is checked before the bounds. -/
theorem test_check_order :
    look 2 (step (start .word64 [{ word := 0x40000002, args := [0x1000, 4, 3, 2] }])) =
      some ⟨some (.fault .slotNotInitialised), .undetected, false, 0, some .slotNotInitialised⟩ := by decide +kernel

/-- R60: a host write before a command is seen by it; one to an unreadable byte leaves nothing to see. -/
theorem test_host_write :
    readByte (hostWriteByte vectorMem 0x1001 0xEE) 0x1001 = some 0xEE ∧ readByte (hostWriteByte vectorMem 0x1001 0xEE) 0x1002 = some 0x63 ∧
    readByte (hostWriteByte vectorMem 0x1004 0xEE) 0x1004 = none := by decide

/-- The numbers of R80 and R200. -/
theorem test_codes :
    [statusCode (.ok none), statusCode .outOfRange, statusCode (.fault .badSlot)] = [0, 1, 2] ∧
    ([none, some .illegalCommand, some .badSlot, some .slotNotInitialised, some .modeUnsupported, some .memoryFault,
      some .tableNotBuilt].map faultCode) = [0, 1, 2, 3, 4, 5, 6] ∧ causeOf (.fault .memoryFault) = some 5 ∧
    resultOf (.ok (some 7)) = some 7 := by decide

/-! ### Witnesses: concrete states and operands that meet a statement's hypotheses together -/

/-- A state of the vectors with slots 0 and 1 live, in a hardware mode. -/
def ready : State := live 1 0x3E2FBCCF .hardwareWide (live 0 initReg .hardwareWide (start .word64 []))

theorem ready_slotsOk : ready.SlotsOk := by
  intro a h
  by_cases h1 : a = 1
  · subst h1; decide
  · by_cases h0 : a = 0
    · subst h0; decide
    · have e : ready.accValid.get a = false :=
        (RegFile.get_set_ne _ _ h1).trans ((RegFile.get_set_ne _ _ h0).trans (RegFile.get_all _ _))
      exact absurd (h.symm.trans e) (by decide)

theorem witness_ready : ready.fault = none ∧ ready.Live 0 ∧ ready.Live 1 ∧ ready.TableOk ∧ ready.SlotsOk ∧ ready.ModeOk :=
  ⟨rfl, by decide, by decide, fun h => absurd h (by decide), ready_slotsOk, rfl⟩

/-- Writing slot 3, which is not live, leaves the registers of the live slots. -/
theorem ready_slot3 (v : Word) (a : SlotIx) (h : ready.accValid.get a = true) : (ready.acc.set 3 v).get a = ready.acc.get a := by
  apply RegFile.get_set_ne
  intro e
  subst e
  exact absurd h (by decide)

theorem witness_decodeOfEncode :
    (Instr.update 255 (2 ^ 64 - 1) 0 0 1).wf .w64 = true ∧ (Instr.updateRaw 0 (2 ^ 32 - 1) 0).wf .w32 = true := by decide

theorem witness_encodeOfDecode :
    decode .w32 { word := 0x400000FF, args := [0xFFFFFFFF, 0, 0, 1] } = .ok (.update 255 (2 ^ 32 - 1) 0 0 1) := by decide

theorem witness_matchAndMaskRows :
    (∃ r, r ∈ opcodeRows ∧ rowMatches r 0x9000FF00 = true) ∧
    decode .w64 { word := 0x9000FF00, args := [] } = .ok (.tableRead 255) := by decide

theorem witness_illegalCommandWords :
    decode .w64 { word := 0x90000001, args := [] } = .error .illegalCommand ∧
    decode .w64 { word := 0x90000000, args := [7] } ≠ .error .illegalCommand ∧
    (start .word64 [{ word := 0xF0000000, args := [5] }]).fault = none ∧
    (start .word64 [{ word := 0xF0000000, args := [5] }]).port = .command { word := 0xF0000000, args := [5] } :: [] ∧
    decode (start .word64 [{ word := 0xF0000000, args := [5] }]).cfg.addrW { word := 0xF0000000, args := [5] } =
      .error .illegalCommand := by decide

theorem witness_argumentWordsOfAnOpcode : legalWord 0x40000000 = true ∧ legalWord 0x600000FF = true ∧ legalWord 0x2C000000 = true := by
  decide

/-- A table that holds `T`, for the statements about tables. -/
theorem witness_builtTable : ∀ i ∈ [0, 0x61, (0xFF : Byte)], builtTable.get i = tableFn i := by decide +kernel

theorem witness_tableHoldsT : ∃ table : RegFile Word, ∀ i : Byte, table.get i = tableFn i :=
  ⟨builtTable, fun i => by simp [builtTable, RegFile.get, RegFile.ofFn]⟩

theorem witness_bitSerialForms : (0xFFFFFF00 : Word).extractLsb' 0 8 = 0 := by decide

theorem witness_wordLoops : ([1, 2, 3] : List Byte).length < 4 ∧ ([1, 2, 3, 4, 5, 6, 7] : List Byte).length < 8 := by decide

theorem witness_memReadIsLittleEndian :
    (∀ k : Nat, k < 4 → readable vectorMem (0x1000 + k) = true) ∧ (∀ k : Nat, k < 8 → readable vectorMem (0x2001 + k) = true) ∧
    readable vectorMem (0x1000 + 7) = false := by decide

theorem witness_region : ready.Region 0x1001 [0x62, 0x63, 0x64] ∧ ready.Region 0 [] := by
  refine ⟨.inr ⟨by decide, ?_⟩, .inl rfl⟩
  intro k h
  have h3 : k < 3 := h
  interval_cases k <;> rfl

theorem witness_regionTop : topState.Region 0xFFFFFFFE [0x61, 0x62] ∧ topState.fault = none ∧ topState.Live 0 ∧ topState.TableOk := by
  refine ⟨.inr ⟨by decide, ?_⟩, rfl, by decide, fun h => absurd h (by decide)⟩
  intro k h
  have h2 : k < 2 := h
  interval_cases k <;> rfl

theorem witness_readsOfARegion : regionBytes ready 0x2003 5 = some [0x34, 0x35, 0x36, 0x37, 0x38] ∧ regionBytes ready 0 0 = some [] := by
  decide

theorem witness_hostWriteIsSeen :
    (present (.hostWrite 0x1002 0xAA) ready).port = .hostWrite 0x1002 0xAA :: [] ∧
    Memory.wf (present (.hostWrite 0x1002 0xAA) ready).mem = true ∧ readable ready.mem 0x1002 = true ∧
    readable ready.mem 0x1004 = false := by decide

theorem witness_blockNeverWritesMemory :
    (exec (.updateRaw 0 0x2000 9) ready = .next (stateAfter ready (exec (.updateRaw 0 0x2000 9) ready))) ∧
    (step (start .word64 [{ word := 0x80000000, args := [] }]) =
      .next (stateAfter ready (step (start .word64 [{ word := 0x80000000, args := [] }])))) := ⟨rfl, rfl⟩

theorem witness_stepRunsTheDecodedCommand :
    (start .word64 [{ word := 0x60000001, args := [0x2000, 9] }]).port = .command { word := 0x60000001, args := [0x2000, 9] } :: [] ∧
    decode (start .word64 []).cfg.addrW { word := 0x60000001, args := [0x2000, 9] } = .ok (.updateRaw 1 0x2000 9) := by decide

theorem witness_emptyPortAndMalformed :
    (start .word64 []).port = [] ∧ decode .w64 { word := 0x40000000, args := [] } = .error .missingArguments ∧
    decode .w64 { word := 0x10000000, args := [0] } = .error .extraArguments ∧
    decode .w32 { word := 0x40000000, args := [0, 0, 0, 0x100000000] } = .error .argumentTooWide := by decide

theorem witness_resultOnlyWhereTheRuleSays :
    exec .getMode ready = .next { ready with response := some (.ok (some 3)), position := 1 } ∧ statusCode (.ok (some 3)) = 0 := ⟨rfl, rfl⟩

theorem witness_positionInTheProgram :
    (∃ t, step (start .word64 [{ word := 0x10000004, args := [] }]) = .next t ∧ t.position = 0) ∧
    (∃ t, step (start .word64 [{ word := 0x10000003, args := [] }]) = .next t ∧ t.position = 1) ∧
    (∃ t, step (start .word64 []) = .next t ∧ t.position = 0) := ⟨⟨_, rfl, rfl⟩, ⟨_, rfl, rfl⟩, ⟨_, rfl, rfl⟩⟩

theorem witness_faultsArePreciseAndSticky :
    ready.fault = none ∧ (∃ t, exec (.finalize 2) ready = .next t ∧ t.fault = some .slotNotInitialised) ∧
    (∃ s t : State, s.fault = some .slotNotInitialised ∧ step s = .next t) :=
  ⟨rfl, ⟨_, rfl, rfl⟩, ⟨stateAfter ready (exec (.finalize 2) ready), _, rfl, rfl⟩⟩

theorem witness_badSlotFaults : slotOf (.accNew 4) = some 4 ∧ ready.fault = none ∧ ready.cfg.accCount ≤ (4 : SlotIx).toNat := by decide

theorem witness_slotNotInitialisedFaults :
    slotOf (.update 3 0 0 1 1) = some 3 ∧ needsLive (.update 3 0 0 1 1) = true ∧ ready.fault = none ∧
    (3 : SlotIx).toNat < ready.cfg.accCount ∧ ready.accValid.get 3 = false := by decide

theorem witness_updateOutOfRange : ready.fault = none ∧ ready.Live 0 ∧ ready.Live 1 ∧ 4 < 5 + 0 := by decide

/-- Both ways a region can fail, for UPDATE and UPDATE_RAW: the byte past "abcd", and the top of the address space. -/
theorem witness_regionNotAdmittedFaults :
    ready.fault = none ∧ ready.Live 0 ∧ 0 + 5 ≤ 5 ∧ 4 < 5 ∧ readable ready.mem (0x1000 + 0 + 4) = false ∧
    2 ^ ready.cfg.addrW.bits < 0xFFFFFFFFFFFFFFFF + 2 ∧ 2 ^ ready.cfg.addrW.bits < 0xFFFFFFFFFFFFFFFF + 1 + 1 := by decide

theorem witness_accNewStartsTheSlot :
    (start .none []).fault = none ∧ (3 : SlotIx).toNat < (start .none []).cfg.accCount ∧
    ((start .none []).mode = .undetected ∧ (start .none []).cfg.hwLevel = .none) ∧
    ¬(ready.mode = .undetected ∧ ready.cfg.hwLevel = .none) ∧ ready.fault = none ∧ (3 : SlotIx).toNat < ready.cfg.accCount := by decide

theorem witness_setModeWritesMode :
    (start .word64 []).fault = none ∧ (start .word64 []).cfg.hwLevel = .word64 ∧
    ((Mode.hardwareNarrow = .hardwareNarrow ∧ (start .none []).cfg.hwLevel = .none)) ∧
    ((Mode.hardwareWide = .hardwareWide ∧ (start .word32 []).cfg.hwLevel ≠ .word64)) := by decide

theorem witness_tableReadReadsTheEntry :
    (buildTable ready).fault = none ∧ (buildTable ready).tableValid = true ∧ (buildTable ready).TableOk ∧
    ready.fault = none ∧ ready.tableValid = false :=
  ⟨rfl, rfl, fun _ i => by simp [Machine.buildTable, builtTable, RegFile.get, RegFile.ofFn], rfl, rfl⟩

theorem witness_updateFoldsTheBytes :
    ready.fault = none ∧ ready.Live 0 ∧ ready.TableOk ∧ 1 + 3 ≤ 4 ∧ ([0x62, 0x63, 0x64] : List Byte).length = 3 ∧
    ready.Region (0x1000 + 1) [0x62, 0x63, 0x64] :=
  ⟨rfl, by decide, witness_ready.2.2.2.1, by decide, rfl, witness_region.1⟩

theorem witness_updateFoldsNoByte :
    ready.fault = none ∧ ready.Live 0 ∧ ready.TableOk ∧ 4 + 0 ≤ 4 ∧ ([] : List Byte).length = 0 ∧ ready.Region (0x1000 + 4) [] :=
  ⟨rfl, by decide, witness_ready.2.2.2.1, by decide, rfl, .inl rfl⟩

theorem witness_slotsAreLeftAlone :
    slotOf (.updateOne 0 7) = some 0 ∧ slotOf .getMode = none ∧ (∃ t, exec (.updateOne 0 7) ready = .next t) ∧
    (∃ t, exec .getMode ready = .next t) := ⟨rfl, rfl, ⟨_, rfl⟩, ⟨_, rfl⟩⟩

theorem witness_writersOfModeAndTable :
    (buildTable ready).tableValid = true ∧ (∃ t, step (buildTable ready) = .next t) ∧ (∃ t, exec (.setMode .undetected) ready = .next t) ∧
    (∃ t, exec .buildTable ready = .next t) := ⟨rfl, ⟨_, rfl⟩, ⟨_, rfl⟩, ⟨_, rfl⟩⟩

theorem witness_readingCommandsFrame :
    hasResult (.tableRead 0) = true ∧ (∃ t, exec (.tableRead 0) ready = .next t ∧ t.fault = some .tableNotBuilt) ∧
    (∃ t, exec (.finalize 1) ready = .next t ∧ t.fault = none) := ⟨rfl, ⟨_, rfl, rfl⟩, ⟨_, rfl, rfl⟩⟩

theorem witness_accumulatorCommandsFrame :
    isUpdate (.updateRaw 0 0x2000 9) = true ∧ (∃ t, exec (.updateRaw 0 0x2000 9) ready = .next t) ∧ (∃ t, exec (.accNew 2) ready = .next t) :=
  ⟨rfl, ⟨_, rfl⟩, ⟨_, rfl⟩⟩

theorem witness_resetMeetsTheInvariant : (cfgOf .word32 .w32).Legal ∧ Memory.wf vectorMem = true ∧ resetConfig.Legal := by decide

/-- A state that meets the invariant, with slots live and the table built, and a step from it. -/
theorem witness_stepKeepsTheInvariant :
    (buildTable ready).Inv ∧ ∃ t, step (buildTable ready) = .next t :=
  ⟨⟨by decide, by decide, witness_tableReadReadsTheEntry.2.2.1, ready_slotsOk, rfl⟩, ⟨_, rfl⟩⟩

theorem witness_resetValues : RunsTo 0 (start .word64 []) (start .word64 []) := rfl

theorem witness_modeIsConcreteAfterUse :
    (∃ t, exec (.accNew 0) (start .word32 []) = .next t ∧ t.response = some (.ok none)) ∧
    (∃ t, step (live 0 0 .hardwareWide (start .word64 [{ word := 0x20000000, args := [] }])) = .next t ∧ t.mode = .undetected) :=
  ⟨⟨_, rfl, rfl⟩, ⟨_, rfl, rfl⟩⟩

theorem witness_tableIsStable :
    (buildTable ready).tableValid = true ∧ (buildTable ready).TableOk ∧ RunsTo 1 (buildTable ready) (buildTable ready) ∧
    (buildTable ready).fault = none := ⟨rfl, witness_tableReadReadsTheEntry.2.2.1, rfl, rfl⟩

theorem witness_unfaultedRunNeverFaulted : RunsTo (1 + 1) ready ready ∧ ready.fault = none := ⟨rfl, rfl⟩

/-- Two states that differ in a table that is not built and in a slot that is not live. -/
theorem witness_unwrittenValuesAreUnseen :
    SameValues ready (writeAcc 3 5 { ready with table := builtTable }) ∧ (∃ t, step ready = .next t) ∧
    SameValues (present (.command { word := 0x40000000, args := [] }) ready)
      (present (.command { word := 0x40000000, args := [] }) (writeAcc 3 5 ready)) ∧
    step (present (.command { word := 0x40000000, args := [] }) ready) = .fault .missingArguments := by
  exact ⟨⟨rfl, rfl, fun h => absurd h (by decide), rfl, ready_slot3 5, rfl, rfl, rfl, rfl, rfl, rfl⟩, ⟨_, rfl⟩,
    ⟨rfl, rfl, fun _ => rfl, rfl, ready_slot3 5, rfl, rfl, rfl, rfl, rfl, rfl⟩, rfl⟩

/-- Two states that differ in slot 1 only. -/
theorem witness_slotsAreNotReadByOthers :
    SameBut 0 ready (writeAcc 1 5 ready) ∧ slotOf (.finalize 0) = some 0 ∧ slotOf .getMode = none ∧
    (∃ t, exec (.finalize 0) ready = .next t) ∧ (∃ t, exec .getMode ready = .next t) :=
  ⟨⟨rfl, rfl, rfl, rfl, by decide +kernel, rfl, rfl, rfl, rfl, rfl, rfl⟩, rfl, rfl, ⟨_, rfl⟩, ⟨_, rfl⟩⟩

/-- ACC_NEW and BUILD_TABLE, in both orders, from reset on a host without CRC32C instructions. -/
theorem witness_initialisationConverges :
    (start .none []).TableOk ∧ initialises (.accNew 0) = true ∧ initialises .buildTable = true ∧
    ∃ s1 s2 u1 u2, exec (.accNew 0) (start .none []) = .next s1 ∧ s1.response = some (.ok none) ∧ exec .buildTable s1 = .next s2 ∧
      s2.response = some (.ok none) ∧ exec .buildTable (start .none []) = .next u1 ∧ u1.response = some (.ok none) ∧
      exec (.accNew 0) u1 = .next u2 ∧ u2.response = some (.ok none) :=
  ⟨fun h => absurd h (by decide), rfl, rfl, _, _, _, _, rfl, rfl, rfl, rfl, rfl, rfl, rfl, rfl⟩

theorem witness_modeChangeIsNoHazard :
    ready.fault = none ∧ ready.Live 0 ∧ ready.TableOk ∧ ready.Region 0x1001 ([0x62] ++ [0x63, 0x64]) ∧
    supported .softwareTable ready.cfg.hwLevel = true :=
  ⟨rfl, by decide, witness_ready.2.2.2.1, witness_region.1, rfl⟩

theorem witness_finalizeMidStream :
    ready.fault = none ∧ (3 : SlotIx).toNat < ready.cfg.accCount ∧ ready.TableOk ∧ ready.Region 0x1001 [0x62, 0x63, 0x64] ∧
    ready.Region 0 [] :=
  ⟨rfl, by decide, witness_ready.2.2.2.1, witness_region.1, witness_region.2⟩

theorem witness_getModeReadsMode :
    ready.fault = none ∧ (start .none []).fault = none ∧ (start .none []).mode = .undetected ∧
    (0 : SlotIx).toNat < (start .none []).cfg.accCount := by decide

/-- BUILD_TABLE on a table that is not built, and on one that is. -/
theorem witness_buildTableBuilds :
    ready.fault = none ∧ ready.tableValid = false ∧ (buildTable ready).fault = none ∧ (buildTable ready).TableOk ∧
    (buildTable ready).tableValid = true := ⟨rfl, rfl, rfl, witness_tableReadReadsTheEntry.2.2.1, rfl⟩

theorem witness_updateOneFoldsTheByte : ready.fault = none ∧ ready.Live 1 ∧ ready.TableOk := ⟨rfl, by decide, witness_ready.2.2.2.1⟩

/-- A region that ends exactly at the top of the address space. -/
theorem witness_updateRawFoldsTheBytes :
    topState.fault = none ∧ topState.Live 0 ∧ topState.TableOk ∧ ([0x61, 0x62] : List Byte).length = 2 ∧
    topState.Region 0xFFFFFFFE [0x61, 0x62] :=
  ⟨rfl, by decide, witness_regionTop.2.2.2, rfl, witness_regionTop.1⟩

theorem witness_finalizeReturnsTheComplement : ready.fault = none ∧ ready.Live 0 := ⟨rfl, by decide⟩

theorem witness_modeAndTableCommandsFrame :
    (∃ t, exec (.setMode .hardwareNarrow) ready = .next t ∧ t.fault = none) ∧
    (∃ t, exec (.setMode .hardwareWide) (start .word32 []) = .next t ∧ t.fault = some .modeUnsupported) ∧
    (∃ t, exec .buildTable ready = .next t) := ⟨⟨_, rfl, rfl⟩, ⟨_, rfl, rfl⟩, ⟨_, rfl⟩⟩

theorem witness_redetectionAfterUndetected : ready.fault = none ∧ (3 : SlotIx).toNat < ready.cfg.accCount := by decide

/-- A run without a fault, for `SafeRun`. -/
theorem witness_safeRun : SafeRun 2 ready := ⟨ready, rfl, rfl⟩

/-- V39: an illegal word, with argument words after it, issued to a block that BAD_SLOT has faulted. -/
def faultedWithIllegal : State :=
  { start .word64 [{ word := 0xF0000000, args := [5] }] with fault := some .badSlot }

theorem witness_illegalWordOnAFaultedBlock :
    faultedWithIllegal.fault = some .badSlot ∧ faultedWithIllegal.port = .command { word := 0xF0000000, args := [5] } :: [] ∧
    decode faultedWithIllegal.cfg.addrW { word := 0xF0000000, args := [5] } = .error .illegalCommand := by decide

/-- V39.2: the answer there is the recorded cause, and nothing of the block changes. -/
theorem test_illegal_while_faulted :
    look 0 (step faultedWithIllegal) = some ⟨some (.fault .badSlot), .undetected, false, 0, some .badSlot⟩ := by decide +kernel

/-- The three updates of "abcd", each with the bytes it folds. -/
def threeUpdates : List (Instr × List Byte) :=
  [(.updateOne 0 0x61, [0x61]), (.update 0 0x1000 4 1 3, [0x62, 0x63, 0x64]), (.updateRaw 0 0 0, [])]

/-- Each update folds its bytes, in any state on that memory and configuration. -/
theorem folds_threeUpdates (s : State) (hm : s.mem = vectorMem) (hc : s.cfg = cfgOf .word64 .w64) :
    ∀ c ∈ threeUpdates, s.Folds 0 c.1 c.2 := by
  have hr : s.Region (0x1000 + 1) [0x62, 0x63, 0x64] := by
    refine .inr ⟨by rw [hc]; decide, ?_⟩
    intro k h
    have h3 : k < 3 := h
    rw [hm]
    interval_cases k <;> rfl
  intro c h
  simp only [threeUpdates, List.mem_cons, List.not_mem_nil, or_false] at h
  obtain rfl | rfl | rfl := h
  · exact ⟨rfl, rfl⟩
  · exact ⟨rfl, by decide, rfl, hr⟩
  · exact ⟨rfl, rfl, .inl rfl⟩

/-- The three updates with SET_MODE 1 before them and SET_MODE 0 after. -/
theorem witness_modeChangesAmongAnyUpdates :
    ready.fault = none ∧ ready.Live 0 ∧ ready.TableOk ∧
    ∀ c ∈ ((.setMode .softwareTable, []) :: threeUpdates ++ [(.setMode .undetected, [])] : List (Instr × List Byte)),
      ready.Folds 0 c.1 c.2 ∨ ∃ m : Mode, c = (.setMode m, []) ∧ supported m ready.cfg.hwLevel = true := by
  refine ⟨rfl, by decide, witness_ready.2.2.2.1, ?_⟩
  intro c h
  simp only [List.cons_append, List.mem_cons, List.mem_append, List.not_mem_nil, or_false] at h
  obtain rfl | h | rfl := h
  · exact .inr ⟨_, rfl, rfl⟩
  · exact .inl (folds_threeUpdates ready rfl rfl c h)
  · exact .inr ⟨_, rfl, rfl⟩

/-- The three updates, FINALIZE, and the three updates again with a FINALIZE among them. -/
theorem witness_finalizeAmongAnyUpdates :
    ready.fault = none ∧ (0 : SlotIx).toNat < ready.cfg.accCount ∧ ready.TableOk ∧
    ∀ c ∈ threeUpdates ++ ((.finalize 0, []) :: threeUpdates), ready.Folds 0 c.1 c.2 ∨ c = (.finalize 0, []) := by
  refine ⟨rfl, by decide, witness_ready.2.2.2.1, ?_⟩
  intro c h
  simp only [List.mem_append, List.mem_cons] at h
  obtain h | rfl | h := h
  · exact .inl (folds_threeUpdates ready rfl rfl c h)
  · exact .inr rfl
  · exact .inl (folds_threeUpdates ready rfl rfl c h)

/-- BUILD_TABLE and two ACC_NEWs, and the same in reverse, from reset on a host without CRC32C instructions. -/
theorem witness_initialisationConvergesInEveryOrder :
    [Instr.buildTable, .accNew 0, .accNew 1].Perm [.accNew 1, .accNew 0, .buildTable] ∧
    (∀ i ∈ [Instr.buildTable, .accNew 0, .accNew 1], initialises i = true) ∧ (start .none []).TableOk ∧
    (∃ t, execAll [.buildTable, .accNew 0, .accNew 1] (start .none []) = .next t ∧ t.fault = none) ∧
    (∃ u, execAll [.accNew 1, .accNew 0, .buildTable] (start .none []) = .next u ∧ u.fault = none) :=
  ⟨by decide, by decide, fun h => absurd h (by decide), ⟨_, rfl, rfl⟩, ⟨_, rfl, rfl⟩⟩

/-- The lazy build in software mode, and detection's software branch: the writers of the table beside BUILD_TABLE. -/
theorem witness_writersOfTheTable :
    (∃ t, exec (.updateRaw 0 0 0) (writeMode .softwareTable ready) = .next t ∧ t.tableValid = true) ∧
    (∃ t, exec (.accNew 0) (start .none []) = .next t ∧ t.tableValid = true) := ⟨⟨_, rfl, rfl⟩, ⟨_, rfl, rfl⟩⟩

end Sys2Proof.Tests
end

section
/-! PROOFS. 00_scope.md R14, R15: a step runs the command decoded at the head of the port, and every command answers. -/

namespace Sys2Proof.Machine

/-! ### A step runs the decoded command -/

theorem fetch_of_decode_ok {s : State} {c : Command} {rest : List PortEvent} {i : Instr} (hp : s.port = .command c :: rest)
    (hd : decode s.cfg.addrW c = .ok i) : fetch s = .command i { s with port := rest } := by
  simp [fetch, hp, hd]

theorem step_of_fetch_command {s t : State} {i : Instr} (h : fetch s = .command i t) : step s = exec i t := by
  simp [step, h]

/-- Settles O21: the fetch finds the decoded command and the state with its item taken off, which the step hands to `exec`. -/
theorem stepRunsTheDecodedCommand : Obligations.StepRunsTheDecodedCommand :=
  fun _ _ _ _ hp hd => step_of_fetch_command (fetch_of_decode_ok hp hd)

/-! ### Every command answers -/

/-- The result is a next state that holds a response: the model neither stops nor refuses (30_encoding.md R78). -/
def Answers (k : StepResult) : Prop := ∃ (t : State) (r : Response), k = .next t ∧ t.response = some r

theorem answers_complete (r : Option Word) (s : State) : Answers (complete r s) := ⟨_, _, rfl, rfl⟩

theorem answers_rejectOutOfRange (s : State) : Answers (rejectOutOfRange s) := ⟨_, _, rfl, rfl⟩

theorem answers_raiseFault (c : Cause) (s : State) : Answers (raiseFault c s) := ⟨_, _, rfl, rfl⟩

/-- A faulted block answers its recorded cause, so the check keeps answering. -/
theorem answers_unlessFaulted {k : StepResult} (s : State) (h : Answers k) : Answers (unlessFaulted s k) := by
  cases hf : s.fault with
  | none => rwa [unlessFaulted_running k hf]
  | some c => exact ⟨_, _, unlessFaulted_faulted k hf, rfl⟩

/-- The shape of every check of a command's own: where it fails, the command faults. -/
theorem answers_ite_raiseFault {k : StepResult} (b : Bool) (c : Cause) (s : State) (h : Answers k) :
    Answers (if b then k else raiseFault c s) := by
  cases b with
  | true => exact h
  | false => exact answers_raiseFault c s

theorem answers_withSlot {k : StepResult} (a : SlotIx) (s : State) (h : Answers k) : Answers (withSlot a s k) :=
  answers_unlessFaulted s (answers_ite_raiseFault _ _ s h)

theorem answers_withLiveSlot {k : StepResult} (a : SlotIx) (s : State) (h : Answers k) : Answers (withLiveSlot a s k) :=
  answers_withSlot a s (answers_ite_raiseFault _ _ s h)

theorem answers_execUpdate (a : SlotIx) (base len off cnt : Nat) (s : State) : Answers (execUpdate a base len off cnt s) := by
  refine answers_withLiveSlot a s ?_
  split
  · exact answers_rejectOutOfRange s
  · split
    · exact answers_raiseFault _ s
    · exact answers_complete _ _

theorem answers_execUpdateRaw (a : SlotIx) (ptr cnt : Nat) (s : State) : Answers (execUpdateRaw a ptr cnt s) := by
  refine answers_withLiveSlot a s ?_
  split
  · exact answers_raiseFault _ s
  · exact answers_complete _ _

/-- Each command is one of the checks around an ending, and all of these answer. -/
theorem answers_exec (i : Instr) (s : State) : Answers (exec i s) := by
  cases i with
  | accNew a => exact answers_withSlot a s (answers_complete _ _)
  | setMode m => exact answers_unlessFaulted s (answers_ite_raiseFault _ _ s (answers_complete _ _))
  | buildTable => exact answers_unlessFaulted s (answers_complete _ _)
  | update a base len off cnt => exact answers_execUpdate a base len off cnt s
  | updateOne a b => exact answers_withLiveSlot a s (answers_complete _ _)
  | updateRaw a ptr cnt => exact answers_execUpdateRaw a ptr cnt s
  | finalize a => exact answers_withLiveSlot a s (answers_complete _ _)
  | getMode => exact answers_unlessFaulted s (answers_complete _ _)
  | tableRead i => exact answers_unlessFaulted s (answers_ite_raiseFault _ _ s (answers_complete _ _))

/-- Settles O23, by cases on the command. -/
theorem everyCommandAnswers : Obligations.EveryCommandAnswers := answers_exec

end Sys2Proof.Machine
end

section
/-! PROOFS. 10_state.md R20-R28, R30: what a command can change of the block, said once, and from it the frame of the slots, the
writers of MODE and the table, and the invariant of the machine. -/

namespace Sys2Proof.Machine

/-! ### What a command can change -/

/-- The five ways a command can change the block, FAULT and the host's fields apart: not at all (it reads, faults or is rejected),
MODE, the table, a fresh slot after detection, or the register of the slot an update names, after the update's preparation. -/
inductive Change : Instr → State → State → Prop
  | kept (i : Instr) (s : State) : Change i s s
  | setMode {m : Mode} {s : State} (hm : supported m s.cfg.hwLevel = true) : Change (.setMode m) s (writeMode m s)
  | buildTable (s : State) : Change .buildTable s (Machine.buildTable s)
  | startSlot {a : SlotIx} {s : State} (ha : a.toNat < s.cfg.accCount) :
      Change (.accNew a) s (setValid a (writeAcc a initReg (detect s)))
  | fold {i : Instr} {a : SlotIx} {s : State} (v : Word) (hu : isUpdate i = true) (ha : slotOf i = some a) :
      Change i s (writeAcc a v (prepare s))

theorem Effect.change {i : Instr} {s u : State} {r : Option Word} (h : Effect i s r u) : Change i s u := by
  cases i with
  | accNew a => obtain ⟨ha, _, rfl⟩ := h; exact .startSlot ha
  | setMode m => obtain ⟨hm, _, rfl⟩ := h; exact .setMode hm
  | buildTable => obtain ⟨_, rfl⟩ := h; exact .buildTable s
  | update a base len off cnt => obtain ⟨_, _, _, _, _, rfl⟩ := h; exact .fold _ rfl rfl
  | updateOne a b => obtain ⟨_, _, rfl⟩ := h; exact .fold _ rfl rfl
  | updateRaw a ptr cnt => obtain ⟨_, _, _, _, rfl⟩ := h; exact .fold _ rfl rfl
  | finalize a => obtain ⟨_, _, rfl⟩ := h; exact .kept _ _
  | getMode => obtain ⟨_, rfl⟩ := h; exact .kept _ _
  | tableRead i => obtain ⟨_, _, rfl⟩ := h; exact .kept _ _

/-- A command makes one of these changes and, beside it, writes only FAULT, the response and the position. -/
theorem exec_change {i : Instr} {s t : State} (h : exec i s = .next t) :
    ∃ u f r n, Change i s u ∧ t = { u with fault := f, response := r, position := n } := by
  obtain ⟨c, _, rfl⟩ | ⟨_, c, _, rfl⟩ | ⟨_, _, rfl⟩ | ⟨_, r, u, he, rfl⟩ := exec_next h
  · exact ⟨s, _, _, _, .kept i s, rfl⟩
  · exact ⟨s, _, _, _, .kept i s, rfl⟩
  · exact ⟨s, _, _, _, .kept i s, rfl⟩
  · exact ⟨u, _, _, _, he.change, rfl⟩

theorem illegalCommand_next {s t : State} (h : illegalCommand s = .next t) :
    ∃ f c, t = { s with fault := f, response := some (.fault c) } := by
  obtain ⟨c, _, rfl⟩ | ⟨_, h⟩ := unlessFaulted_next h
  · exact ⟨_, _, rfl⟩
  · exact ⟨_, _, raiseFault_next h⟩

/-- What a step changes: the host's side, FAULT and at most one byte of memory, or what the decoded command changes. -/
theorem step_change {s t : State} (h : step s = .next t) :
    (∃ p m f r n, (m = s.mem ∨ ∃ x b, m = hostWriteByte s.mem x b) ∧
      t = { s with port := p, mem := m, fault := f, response := r, position := n }) ∨
    (∃ c rest i u f r n, s.port = .command c :: rest ∧ decode s.cfg.addrW c = .ok i ∧ Change i { s with port := rest } u ∧
      t = { u with fault := f, response := r, position := n }) := by
  obtain ⟨_, rfl⟩ | ⟨x, b, rest, _, rfl⟩ | ⟨c, rest, i, hp, hd, h⟩ | ⟨c, rest, _, _, h⟩ := step_next h
  · exact .inl ⟨_, _, _, _, _, .inl rfl, rfl⟩
  · exact .inl ⟨_, _, _, _, _, .inr ⟨x, b, rfl⟩, rfl⟩
  · obtain ⟨u, f, r, n, hc, e⟩ := exec_change h
    exact .inr ⟨c, rest, i, u, f, r, n, hp, hd, hc, e⟩
  · obtain ⟨f, c, rfl⟩ := illegalCommand_next h
    exact .inl ⟨_, _, _, _, _, .inl rfl, rfl⟩

@[simp] theorem detect_acc (s : State) : (detect s).acc = s.acc := by
  obtain ⟨_, e⟩ | ⟨_, _, e⟩ | ⟨_, _, e⟩ | ⟨_, _, e⟩ := detect_cases s <;> simp [e]

@[simp] theorem detect_accValid (s : State) : (detect s).accValid = s.accValid := by
  obtain ⟨_, e⟩ | ⟨_, _, e⟩ | ⟨_, _, e⟩ | ⟨_, _, e⟩ := detect_cases s <;> simp [e]

@[simp] theorem detect_cfg (s : State) : (detect s).cfg = s.cfg := by
  obtain ⟨_, e⟩ | ⟨_, _, e⟩ | ⟨_, _, e⟩ | ⟨_, _, e⟩ := detect_cases s <;> simp [e]

/-! ### The invariant -/

theorem State.Inv.writeMode {s : State} (h : s.Inv) {m : Mode} (hm : supported m s.cfg.hwLevel = true) :
    (writeMode m s).Inv := { h with modeOk := hm }

theorem State.Inv.buildTable {s : State} (h : s.Inv) : (buildTable s).Inv := { h with tableOk := builtTable_ok s }

theorem State.Inv.writeAcc {s : State} (h : s.Inv) (a : SlotIx) (v : Word) : (writeAcc a v s).Inv := { h with }

/-- Making a slot live that exists keeps "only slots that exist are live". -/
theorem State.Inv.setValid {s : State} (h : s.Inv) {a : SlotIx} (ha : a.toNat < s.cfg.accCount) : (setValid a s).Inv := by
  refine { h with slotsOk := ?_ }
  intro b hb
  by_cases e : b = a
  · exact e ▸ ha
  · exact h.slotsOk b (by simpa [RegFile.get_set_ne _ _ e] using hb)

/-- Detection selects a mode that HW_LEVEL supports (41_capability.md R123). -/
theorem State.Inv.detect {s : State} (h : s.Inv) : (detect s).Inv := by
  obtain ⟨_, e⟩ | ⟨_, hh, e⟩ | ⟨_, hh, e⟩ | ⟨_, hh, e⟩ := detect_cases s <;> rw [e]
  · exact h
  · exact (h.writeMode rfl).buildTable
  · exact h.writeMode (by rw [hh]; rfl)
  · exact h.writeMode (by rw [hh]; rfl)

theorem State.Inv.prepare {s : State} (h : s.Inv) : (prepare s).Inv := by
  obtain ⟨_, _, e⟩ | ⟨_, e⟩ := lazyBuild_cases (Machine.detect s) <;> rw [Machine.prepare, e]
  · exact h.detect.buildTable
  · exact h.detect

theorem Change.inv {i : Instr} {s u : State} (h : Change i s u) (hi : s.Inv) : u.Inv := by
  cases h with
  | kept => exact hi
  | setMode hm => exact hi.writeMode hm
  | buildTable => exact hi.buildTable
  | startSlot ha => exact (hi.detect.writeAcc _ _).setValid (by simpa using ha)
  | fold v hu ha => exact hi.prepare.writeAcc _ _

theorem Change.cfg {i : Instr} {s u : State} (h : Change i s u) : u.cfg = s.cfg := by
  cases h <;> simp

/-- Settles O45: nothing is built or live after reset, and MODE 0 is supported by every HW_LEVEL. -/
theorem resetMeetsTheInvariant : Obligations.ResetMeetsTheInvariant := by
  intro c m p hc hm
  exact { cfgLegal := hc, memWf := hm, tableOk := nofun, slotsOk := fun a ha => by simp at ha, modeOk := rfl }

/-- Settles O46: a host write keeps memory canonical, every change a command makes keeps the invariant, and no field of it is among
the rest that a step writes. -/
theorem stepKeepsTheInvariant : Obligations.StepKeepsTheInvariant := by
  intro s t hi h
  obtain ⟨p, m, f, r, n, hm, rfl⟩ | ⟨c, rest, i, u, f, r, n, _, _, hc, rfl⟩ := step_change h
  · have hwf : Memory.wf m = true := by
      obtain rfl | ⟨x, b, rfl⟩ := hm
      · exact hi.memWf
      · exact hostWriteByte_wf x b hi.memWf
    exact ⟨{ hi with memWf := hwf }, rfl⟩
  · have hu : u.Inv := hc.inv { hi with }
    exact ⟨{ hu with }, hc.cfg⟩

/-! ### The slots -/

theorem Change.otherSlots {i : Instr} {a : SlotIx} {s u : State} (h : Change i s u) (hi : slotOf i = some a) :
    OtherSlotsSame a s u := by
  intro b hb
  cases h with
  | kept => exact ⟨rfl, rfl⟩
  | setMode => exact ⟨rfl, rfl⟩
  | buildTable => exact ⟨rfl, rfl⟩
  | startSlot ha =>
    obtain rfl := Option.some.inj hi
    simp [RegFile.get_set_ne _ _ hb]
  | fold v hu ha =>
    obtain rfl := Option.some.inj (ha.symm.trans hi)
    simp [RegFile.get_set_ne _ _ hb]

theorem Change.slots_of_slotOf_none {i : Instr} {s u : State} (h : Change i s u) (hi : slotOf i = none) :
    u.acc = s.acc ∧ u.accValid = s.accValid := by
  cases h with
  | kept => exact ⟨rfl, rfl⟩
  | setMode => exact ⟨rfl, rfl⟩
  | buildTable => exact ⟨rfl, rfl⟩
  | startSlot ha => cases hi
  | fold v hu ha => cases ha.symm.trans hi

theorem Change.accValid {i : Instr} {s u : State} (h : Change i s u) (b : SlotIx) :
    u.accValid.get b = s.accValid.get b ∨ (i = .accNew b ∧ u.accValid.get b = true) := by
  cases h with
  | kept => exact .inl rfl
  | setMode => exact .inl rfl
  | buildTable => exact .inl rfl
  | @startSlot a s ha =>
    by_cases e : b = a
    · exact .inr ⟨by rw [e], by simp [e]⟩
    · exact .inl (by simp [RegFile.get_set_ne _ _ e])
  | fold v hu ha => exact .inl (by simp)

/-- Settles O40: each change of a command touches only the slot it names, and only ACC_NEW's touches a valid bit. -/
theorem slotsAreLeftAlone : Obligations.SlotsAreLeftAlone := by
  refine ⟨?_, ?_, ?_⟩
  · intro i a s t hi h
    obtain ⟨u, f, r, n, hc, rfl⟩ := exec_change h
    exact hc.otherSlots hi
  · intro i s t hi h
    obtain ⟨u, f, r, n, hc, rfl⟩ := exec_change h
    exact hc.slots_of_slotOf_none hi
  · intro i s t b h
    obtain ⟨u, f, r, n, hc, rfl⟩ := exec_change h
    exact hc.accValid b

/-! ### MODE and the table -/

theorem initialises_of_isUpdate {i : Instr} (h : isUpdate i = true) : initialises i = true ∧ i ≠ .buildTable := by
  cases i <;> simp_all [isUpdate, initialises]

theorem Change.mode {i : Instr} {s u : State} (h : Change i s u) :
    u.mode = s.mode ∨ i = .setMode u.mode ∨ (initialises i = true ∧ i ≠ .buildTable ∧ u.mode = s.detectedMode) := by
  cases h with
  | kept => exact .inl rfl
  | setMode => exact .inr (.inl rfl)
  | buildTable => exact .inl rfl
  | startSlot ha => exact .inr (.inr ⟨rfl, nofun, detect_mode s⟩)
  | fold v hu ha =>
    obtain ⟨hin, hne⟩ := initialises_of_isUpdate hu
    exact .inr (.inr ⟨hin, hne, prepare_mode s⟩)

/-- The table is as it was, valid bit included. -/
def TableKept (s u : State) : Prop := u.table = s.table ∧ u.tableValid = s.tableValid

/-- The table holds `T` and is marked built. -/
def TableBuilt (u : State) : Prop := u.tableValid = true ∧ ∀ j : Byte, u.table.get j = tableFn j

theorem tableBuilt_buildTable (s : State) : TableBuilt (buildTable s) := ⟨rfl, builtTable_get⟩

/-- Detection writes the table on its software branch only (41_capability.md R120). -/
theorem detect_table (s : State) :
    TableKept s (detect s) ∨ (TableBuilt (detect s) ∧ s.mode = .undetected ∧ s.cfg.hwLevel = .none) := by
  obtain ⟨_, e⟩ | ⟨hm, hh, e⟩ | ⟨_, _, e⟩ | ⟨_, _, e⟩ := detect_cases s <;> rw [e]
  · exact .inl ⟨rfl, rfl⟩
  · exact .inr ⟨tableBuilt_buildTable _, hm, hh⟩
  · exact .inl ⟨rfl, rfl⟩
  · exact .inl ⟨rfl, rfl⟩

/-- An update's preparation writes the table on detection's software branch, or by the lazy build (42_table.md R142). -/
theorem prepare_table_writers (s : State) :
    TableKept s (prepare s) ∨
    (TableBuilt (prepare s) ∧
      ((s.mode = .undetected ∧ s.cfg.hwLevel = .none) ∨ (s.detectedMode = .softwareTable ∧ s.tableValid = false))) := by
  obtain ⟨hm, hv, e⟩ | ⟨_, e⟩ := lazyBuild_cases (detect s) <;> rw [prepare, e]
  · obtain ⟨_, hk⟩ | ⟨_, hd⟩ := detect_table s
    · exact .inr ⟨tableBuilt_buildTable _, .inr ⟨(detect_mode s).symm.trans hm, hk.symm.trans hv⟩⟩
    · exact .inr ⟨tableBuilt_buildTable _, .inl hd⟩
  · obtain hk | ⟨hb, hd⟩ := detect_table s
    · exact .inl hk
    · exact .inr ⟨hb, .inl hd⟩

theorem Change.table {i : Instr} {s u : State} (h : Change i s u) :
    TableKept s u ∨
    (TableBuilt u ∧
      (i = .buildTable ∨
        (((∃ a : SlotIx, i = .accNew a) ∨ isUpdate i = true) ∧ s.mode = .undetected ∧ s.cfg.hwLevel = .none) ∨
        (isUpdate i = true ∧ s.detectedMode = .softwareTable ∧ s.tableValid = false))) := by
  cases h with
  | kept => exact .inl ⟨rfl, rfl⟩
  | setMode => exact .inl ⟨rfl, rfl⟩
  | buildTable => exact .inr ⟨tableBuilt_buildTable s, .inl rfl⟩
  | @startSlot a s ha =>
    obtain hk | ⟨hb, hd⟩ := detect_table s
    · exact .inl hk
    · exact .inr ⟨hb, .inr (.inl ⟨.inl ⟨a, rfl⟩, hd⟩)⟩
  | fold v hu ha =>
    obtain hk | ⟨hb, hd | hl⟩ := prepare_table_writers s
    · exact .inl hk
    · exact .inr ⟨hb, .inr (.inl ⟨.inr hu, hd⟩)⟩
    · exact .inr ⟨hb, .inr (.inr ⟨hu, hl⟩)⟩

/-- Settles O41, by the writers of MODE and of the table among the changes a command can make. -/
theorem writersOfModeAndTable : Obligations.WritersOfModeAndTable := by
  refine ⟨?_, ?_, ?_⟩
  · intro i s t h
    obtain ⟨u, f, r, n, hc, rfl⟩ := exec_change h
    exact hc.mode
  · intro i s t h
    obtain ⟨u, f, r, n, hc, rfl⟩ := exec_change h
    obtain hk | ⟨⟨hv, ht⟩, hw⟩ := hc.table
    · exact .inl hk
    · exact .inr ⟨hv, ht, hw⟩
  · intro s t hv h
    obtain ⟨p, m, f, r, n, _, rfl⟩ | ⟨c, rest, i, u, f, r, n, _, _, hc, rfl⟩ := step_change h
    · exact hv
    · obtain ⟨_, hk⟩ | ⟨⟨hb, _⟩, _⟩ := hc.table
      · exact hk.trans hv
      · exact hb

end Sys2Proof.Machine
end

section
/-! PROOFS. 10_state.md R26: when MODE is concrete, and which command word is SET_MODE with mode 0. -/

namespace Sys2Proof

/-! ### The words that decode to SET_MODE -/

theorem whenZero_eq_ok {z : Bool} {r : Except DecodeError Instr} {i : Instr} :
    whenZero z r = .ok i ↔ z = true ∧ r = .ok i := by
  cases z <;> simp [whenZero]

theorem decodeArgs0_eq_ok {i j : Instr} {args : List ArgWord} : decodeArgs0 i args = .ok j ↔ args = [] ∧ i = j := by
  cases args <;> simp [decodeArgs0]

theorem accepted_eq_ok {w : AddrWidth} {i j : Instr} : accepted w i = .ok j ↔ i.wf w = true ∧ i = j := by
  unfold accepted
  split <;> simp_all

/-- Four argument words are UPDATE's alone (30_encoding.md R74). -/
theorem decodeArgs4_ne_setMode {w : AddrWidth} {a : SlotIx} {args : List ArgWord} {m : Mode} :
    decodeArgs4 w a args ≠ .ok (.setMode m) := by
  unfold decodeArgs4
  split <;> simp [accepted_eq_ok]

/-- Two argument words are UPDATE_RAW's alone (30_encoding.md R74). -/
theorem decodeArgs2_ne_setMode {w : AddrWidth} {a : SlotIx} {args : List ArgWord} {m : Mode} :
    decodeArgs2 w a args ≠ .ok (.setMode m) := by
  unfold decodeArgs2
  split <;> simp [accepted_eq_ok]

/-- The decoder reads SET_MODE from opcode 2 only, with every other field but M zero and no argument words. -/
theorem decode_eq_setMode {w : AddrWidth} {c : Command} {m : Mode} (h : decode w c = .ok (.setMode m)) :
    opField c.word = 2 ∧ zField c.word = 0 ∧ immField c.word = 0 ∧ accField c.word = 0 ∧ c.args = [] ∧
      modeOfBits (mField c.word) = m := by
  dsimp only [decode] at h
  split_ifs at h with h1 h2 <;>
    simp only [whenZero_eq_ok, decodeArgs0_eq_ok, decodeArgs4_ne_setMode, decodeArgs2_ne_setMode, reduceCtorEq, and_false,
      Bool.and_eq_true, beq_iff_eq, Instr.setMode.injEq] at h
  obtain ⟨⟨⟨hz, hi⟩, ha⟩, hargs, hm⟩ := h
  exact ⟨h2, hz, hi, ha, hargs, hm⟩

/-- Only SET_MODE's own words decode to it. -/
theorem eq_encode_of_decode_setMode {w : AddrWidth} {c : Command} {m : Mode} (h : decode w c = .ok (.setMode m)) :
    c = encode (.setMode m) := by
  obtain ⟨ho, hz, hi, ha, hargs, rfl⟩ := decode_eq_setMode h
  have hx := cmdWord_fields c.word hz
  rw [ho, hi, ha] at hx
  rw [encode, modeBits_modeOfBits, hx, ← hargs]

theorem encode_setMode_undetected : encode (.setMode .undetected) = { word := 0x20000000, args := [] } := by decide

end Sys2Proof

namespace Sys2Proof.Machine

/-! ### MODE is concrete after use -/

/-- ACC_NEW and the updates leave MODE as detection does. -/
theorem Effect.mode_detected {i : Instr} {s u : State} {r : Option Word} (h : Effect i s r u)
    (hi : isUpdate i = true ∨ ∃ a : SlotIx, i = .accNew a) : u.mode = s.detectedMode := by
  cases i with
  | accNew a => obtain ⟨_, _, rfl⟩ := h; exact detect_mode s
  | update a base len off cnt => obtain ⟨_, _, _, _, _, rfl⟩ := h; exact prepare_mode s
  | updateOne a b => obtain ⟨_, _, rfl⟩ := h; exact prepare_mode s
  | updateRaw a ptr cnt => obtain ⟨_, _, _, _, rfl⟩ := h; exact prepare_mode s
  | setMode | buildTable | finalize | getMode | tableRead => simp [isUpdate] at hi

theorem mode_concrete {m : Mode} (h : m ≠ .undetected) : m = .softwareTable ∨ m = .hardwareNarrow ∨ m = .hardwareWide := by
  cases m <;> simp_all

/-- Settles O48: detection never leaves MODE 0, and among the writers of MODE only SET_MODE with mode 0 does. -/
theorem modeIsConcreteAfterUse : Obligations.ModeIsConcreteAfterUse := by
  refine ⟨?_, ?_⟩
  · intro i s t r hi h hr
    obtain ⟨c, _, rfl⟩ | ⟨_, c, _, rfl⟩ | ⟨_, _, rfl⟩ | ⟨_, q, u, he, rfl⟩ := exec_next h
    · cases hr
    · cases hr
    · cases hr
    · exact mode_concrete ((he.mode_detected hi).trans_ne (detectedMode_ne s))
  · intro s t h hm
    obtain ⟨p, m, f, r, n, _, rfl⟩ | ⟨c, rest, i, u, f, r, n, hp, hd, hc, rfl⟩ := step_change h
    · exact .inl hm
    · obtain hk | hi | ⟨_, _, hdet⟩ := hc.mode
      · exact .inl (hk.symm.trans hm)
      · have hu : u.mode = .undetected := hm
        rw [hi, hu] at hd
        rw [eq_encode_of_decode_setMode hd, encode_setMode_undetected] at hp
        exact .inr ⟨rest, hp⟩
      · exact absurd (hdet.symm.trans hm) (detectedMode_ne _)

end Sys2Proof.Machine
end

section
/-! PROOFS. 10_state.md R31: the position in the host's program. -/

namespace Sys2Proof.Machine

/-- A command was answered, and the position advanced by one unless it faulted. -/
def Counted (s t : State) : Prop :=
  ∃ r : Response, t.response = some r ∧ t.position = s.position + (if statusCode r = 2 then 0 else 1)

theorem exec_counted {i : Instr} {s t : State} (h : exec i s = .next t) : Counted s t := by
  obtain ⟨c, _, rfl⟩ | ⟨_, c, _, rfl⟩ | ⟨_, _, rfl⟩ | ⟨_, r, u, he, rfl⟩ := exec_next h
  · exact ⟨_, rfl, rfl⟩
  · exact ⟨_, rfl, rfl⟩
  · exact ⟨_, rfl, rfl⟩
  · obtain ⟨_, _, _, _, hn⟩ := he.frame
    exact ⟨_, rfl, congrArg (· + 1) hn⟩

theorem illegalCommand_counted {s t : State} (h : illegalCommand s = .next t) : Counted s t := by
  obtain ⟨f, c, rfl⟩ := illegalCommand_next h
  exact ⟨_, rfl, rfl⟩

/-- Settles O25, by what the head of the port can be and the four things a command can do. -/
theorem positionInTheProgram : Obligations.PositionInTheProgram := by
  refine ⟨?_, ?_⟩
  · intro s t c rest hp h
    obtain ⟨hq, _⟩ | ⟨x, b, rest', hq, _⟩ | ⟨c', rest', i, _, _, h⟩ | ⟨c', rest', _, _, h⟩ := step_next h
    · cases hp.symm.trans hq
    · cases hp.symm.trans hq
    · have hc := exec_counted h
      exact hc
    · have hc := illegalCommand_counted h
      exact hc
  · intro s t h hno
    obtain ⟨_, rfl⟩ | ⟨x, b, rest, _, rfl⟩ | ⟨c, rest, i, hp, _⟩ | ⟨c, rest, hp, _⟩ := step_next h
    · rfl
    · rfl
    · exact absurd hp (hno c rest)
    · exact absurd hp (hno c rest)

end Sys2Proof.Machine
end

section
/-! PROOFS. 10_state.md R21, R27, R35, 43_accumulator.md R172: what a command cannot see. Two runs are followed side by side: a
relation between states that shows what the shared operations read, and that they keep, is kept by every command. -/

namespace Sys2Proof.Machine

/-! ### Following a run in related states -/

/-- Two outcomes go together: next states that are related, or the same fault. -/
inductive Follows (R : State → State → Prop) : StepResult → StepResult → Prop
  | next {s t : State} (h : R s t) : Follows R (.next s) (.next t)
  | fault (f : Fault) : Follows R (.fault f) (.fault f)

/-- Related states agree on what commands read beside the slots (an unbuilt table apart), and stay related where both are written
alike. -/
structure Lockstep (R : State → State → Prop) : Prop where
  mode : ∀ {s t : State}, R s t → t.mode = s.mode
  tableValid : ∀ {s t : State}, R s t → t.tableValid = s.tableValid
  table : ∀ {s t : State}, R s t → s.tableValid = true → t.table = s.table
  fault : ∀ {s t : State}, R s t → t.fault = s.fault
  cfg : ∀ {s t : State}, R s t → t.cfg = s.cfg
  mem : ∀ {s t : State}, R s t → t.mem = s.mem
  respond : ∀ {s t : State} (r : Option Response) (n : Nat), R s t →
    R { s with response := r, position := s.position + n } { t with response := r, position := t.position + n }
  raise : ∀ {s t : State} (f : Option Cause), R s t → R { s with fault := f } { t with fault := f }
  writeMode : ∀ {s t : State} (m : Mode), R s t → R (writeMode m s) (writeMode m t)
  buildTable : ∀ {s t : State}, R s t → R (buildTable s) (buildTable t)
  writeAcc : ∀ {s t : State} (a : SlotIx) (v : Word), R s t → R (writeAcc a v s) (writeAcc a v t)
  startSlot : ∀ {s t : State} (a : SlotIx) (v : Word), R s t →
    R (setValid a (Machine.writeAcc a v s)) (setValid a (Machine.writeAcc a v t))

/-- Related states agree on slot `a`: whether it is live, and its register when it is. -/
def Sees (R : State → State → Prop) (a : SlotIx) : Prop :=
  ∀ {s t : State}, R s t → t.accValid.get a = s.accValid.get a ∧ (s.accValid.get a = true → t.acc.get a = s.acc.get a)

section
variable {R : State → State → Prop} {s t : State} {k k' : StepResult}

theorem Follows.exists_next {s' : State} (h : Follows R k k') (hk : k = .next s') : ∃ t' : State, k' = .next t' ∧ R s' t' := by
  cases h with
  | next hr => cases hk; exact ⟨_, rfl, hr⟩
  | fault f => cases hk

theorem Follows.eq_fault {f : Fault} (h : Follows R k k') (hk : k = .fault f) : k' = .fault f := by
  cases h with
  | next hr => cases hk
  | fault g => exact hk

/-! ### Endings and checks -/

theorem Lockstep.complete (hR : Lockstep R) (h : R s t) {r r' : Option Word} (hr : r' = r) :
    Follows R (complete r s) (complete r' t) := by
  subst hr
  exact .next (hR.respond _ 1 h)

theorem Lockstep.rejectOutOfRange (hR : Lockstep R) (h : R s t) : Follows R (rejectOutOfRange s) (rejectOutOfRange t) :=
  .next (hR.respond _ 1 h)

theorem Lockstep.raiseFault (hR : Lockstep R) (h : R s t) (c : Cause) : Follows R (raiseFault c s) (raiseFault c t) :=
  .next (hR.respond (some (.fault c)) 0 (hR.raise (some c) h))

theorem Lockstep.unlessFaulted (hR : Lockstep R) (h : R s t) (hk : Follows R k k') :
    Follows R (unlessFaulted s k) (unlessFaulted t k') := by
  have hft := hR.fault h
  cases hf : s.fault with
  | none => rwa [unlessFaulted_running k hf, unlessFaulted_running k' (hft.trans hf)]
  | some c =>
    rw [unlessFaulted_faulted k hf, unlessFaulted_faulted k' (hft.trans hf)]
    exact .next (hR.respond _ 0 h)

/-- A check of a command's own that comes out the same on both sides. -/
theorem Lockstep.check (hR : Lockstep R) (h : R s t) {b b' : Bool} (hb : b' = b) (c : Cause) (hk : b = true → Follows R k k') :
    Follows R (if b then k else Machine.raiseFault c s) (if b' then k' else Machine.raiseFault c t) := by
  subst hb
  cases b' with
  | true => exact hk rfl
  | false => exact hR.raiseFault h c

theorem Lockstep.withSlot (hR : Lockstep R) (h : R s t) (a : SlotIx) (hk : Follows R k k') :
    Follows R (withSlot a s k) (withSlot a t k') := by
  have he : slotExists t a = slotExists s a := by simp [slotExists, hR.cfg h]
  exact hR.unlessFaulted h (hR.check h he _ fun _ => hk)

theorem Lockstep.withLiveSlot (hR : Lockstep R) (h : R s t) {a : SlotIx} (ha : Sees R a)
    (hk : t.acc.get a = s.acc.get a → Follows R k k') : Follows R (withLiveSlot a s k) (withLiveSlot a t k') := by
  obtain ⟨hv, hacc⟩ := ha h
  exact hR.withSlot h a (hR.check h hv _ fun hl => hk (hacc hl))

/-! ### Detection, the table and the folds -/

theorem Lockstep.detect (hR : Lockstep R) (h : R s t) : R (detect s) (detect t) := by
  unfold Machine.detect
  rw [hR.mode h, hR.cfg h]
  split
  · split
    · exact hR.writeMode _ h
    · exact hR.writeMode _ h
    · exact hR.buildTable (hR.writeMode _ h)
  all_goals exact h

theorem Lockstep.prepare (hR : Lockstep R) (h : R s t) : R (prepare s) (prepare t) := by
  have hd := hR.detect h
  unfold Machine.prepare lazyBuild
  rw [hR.mode hd, hR.tableValid hd]
  split
  · exact hR.buildTable hd
  · exact hd

theorem Lockstep.strategyOf (hR : Lockstep R) (h : R s t) : strategyOf t = strategyOf s := by
  simp only [Machine.strategyOf, hR.mode h, hR.cfg h]

/-- Where an update folds by the table, its preparation has left the table built. -/
theorem prepare_tableValid_of_strategyOf (s : State) (h : strategyOf (prepare s) = .softwareTable) :
    (prepare s).tableValid = true := by
  have hm := strategyMode_strategyOf (prepare s)
  rw [h, State.detectedMode, prepare_mode, if_neg (detectedMode_ne s)] at hm
  exact prepare_table s hm.symm

/-- A fold that reads the table in software mode only, as both `path` and `byteStep` do. -/
def ReadsTableInSoftwareOnly (f : RegFile Word → Strategy → Word → Word) : Prop :=
  ∀ (table table' : RegFile Word) (st : Strategy), (st = .softwareTable → table' = table) → f table' st = f table st

theorem path_readsTable (bytes : List Byte) : ReadsTableInSoftwareOnly (fun table st r => path table st r bytes) := by
  intro table table' st h
  cases st with
  | softwareTable => rw [h rfl]
  | hardwareNarrow => rfl
  | hardwareWide => rfl

theorem byteStep_readsTable (b : Byte) : ReadsTableInSoftwareOnly (fun table st r => byteStep table st r b) := by
  intro table table' st h
  cases st with
  | softwareTable => rw [h rfl]
  | hardwareNarrow => rfl
  | hardwareWide => rfl

/-- `foldInto` and `foldByteInto` with the fold left open. -/
def foldBy (f : RegFile Word → Strategy → Word → Word) (a : SlotIx) (s : State) : State :=
  writeAcc a (f (prepare s).table (strategyOf (prepare s)) (readAcc (prepare s) a)) (prepare s)

theorem foldInto_eq_foldBy (a : SlotIx) (bytes : List Byte) (s : State) :
    foldInto a bytes s = foldBy (fun table st r => path table st r bytes) a s := rfl

theorem foldByteInto_eq_foldBy (a : SlotIx) (b : Byte) (s : State) :
    foldByteInto a b s = foldBy (fun table st r => byteStep table st r b) a s := rfl

/-- Both sides fold the same value into the slot: the register agrees, and so does the table where it is read. -/
theorem Lockstep.fold (hR : Lockstep R) (h : R s t) {a : SlotIx} (hacc : t.acc.get a = s.acc.get a)
    {f : RegFile Word → Strategy → Word → Word} (hf : ReadsTableInSoftwareOnly f) :
    R (foldBy f a s) (foldBy f a t) := by
  have hp := hR.prepare h
  have hreg : readAcc (Machine.prepare t) a = readAcc (Machine.prepare s) a := by simpa [readAcc] using hacc
  have htab := hf (Machine.prepare s).table (Machine.prepare t).table (Machine.strategyOf (Machine.prepare s))
    fun hst => hR.table hp (prepare_tableValid_of_strategyOf s hst)
  rw [foldBy, foldBy, hR.strategyOf hp, hreg, htab]
  exact hR.writeAcc a _ hp

theorem Lockstep.regionBytes (hR : Lockstep R) (h : R s t) (p n : Nat) : regionBytes t p n = regionBytes s p n := by
  rw [Machine.regionBytes, Machine.regionBytes, admitted, admitted, hR.cfg h, hR.mem h]

/-- The end of both bulk updates: the region, then the fold. -/
def foldRegion (a : SlotIx) (p n : Nat) (s : State) : StepResult :=
  match regionBytes s p n with
  | none => raiseFault .memoryFault s
  | some bytes => complete none (foldInto a bytes s)

theorem exec_update_eq (a : SlotIx) (base len off cnt : Nat) (s : State) :
    exec (.update a base len off cnt) s =
      withLiveSlot a s (if outOfBounds len off cnt then rejectOutOfRange s else foldRegion a (updateStart base off) cnt s) := rfl

theorem exec_updateRaw_eq (a : SlotIx) (ptr cnt : Nat) (s : State) :
    exec (.updateRaw a ptr cnt) s = withLiveSlot a s (foldRegion a ptr cnt s) := rfl

/-- The region is admitted on both sides or on neither, and holds the same bytes. -/
theorem Lockstep.foldRegion (hR : Lockstep R) (h : R s t) {a : SlotIx} (hacc : t.acc.get a = s.acc.get a) (p n : Nat) :
    Follows R (foldRegion a p n s) (foldRegion a p n t) := by
  unfold Machine.foldRegion
  rw [hR.regionBytes h]
  cases Machine.regionBytes s p n with
  | none => exact hR.raiseFault h _
  | some bytes =>
    simp only [foldInto_eq_foldBy]
    exact hR.complete (hR.fold h hacc (path_readsTable bytes)) rfl

/-! ### Every command -/

/-- Related states that agree on the slot a command names, if it names one, answer it the same and stay related. -/
theorem Lockstep.exec (hR : Lockstep R) (h : R s t) {i : Instr} (hi : ∀ a : SlotIx, slotOf i = some a → Sees R a) :
    Follows R (exec i s) (exec i t) := by
  cases i with
  | accNew a => exact hR.withSlot h a (hR.complete (hR.startSlot a initReg (hR.detect h)) rfl)
  | setMode m =>
    have hs : supported m t.cfg.hwLevel = supported m s.cfg.hwLevel := by rw [hR.cfg h]
    exact hR.unlessFaulted h (hR.check h hs _ fun _ => hR.complete (hR.writeMode m h) rfl)
  | buildTable => exact hR.unlessFaulted h (hR.complete (hR.buildTable h) rfl)
  | update a base len off cnt =>
    rw [exec_update_eq, exec_update_eq]
    refine hR.withLiveSlot h (hi a rfl) fun hacc => ?_
    split
    · exact hR.rejectOutOfRange h
    · exact hR.foldRegion h hacc _ cnt
  | updateOne a b =>
    refine hR.withLiveSlot h (hi a rfl) fun hacc => ?_
    rw [foldByteInto_eq_foldBy, foldByteInto_eq_foldBy]
    exact hR.complete (hR.fold h hacc (byteStep_readsTable b)) rfl
  | updateRaw a ptr cnt =>
    rw [exec_updateRaw_eq, exec_updateRaw_eq]
    exact hR.withLiveSlot h (hi a rfl) fun hacc => hR.foldRegion h hacc ptr cnt
  | finalize a =>
    exact hR.withLiveSlot h (hi a rfl) fun hacc => hR.complete h (congrArg (fun v => some (fin v)) hacc)
  | getMode => exact hR.unlessFaulted h (hR.complete h (by rw [hR.mode h]))
  | tableRead j =>
    exact hR.unlessFaulted h (hR.check h (hR.tableValid h) _ fun hv => hR.complete h (by rw [hR.table h hv]))

theorem Lockstep.illegalCommand (hR : Lockstep R) (h : R s t) : Follows R (illegalCommand s) (illegalCommand t) :=
  hR.unlessFaulted h (hR.raiseFault h _)

end

/-! ### Other slots (43_accumulator.md R172) -/

theorem lockstep_sameBut (a : SlotIx) : Lockstep (SameBut a) where
  mode h := h.mode
  tableValid h := h.tableValid
  table h _ := h.table
  fault h := h.fault
  cfg h := h.cfg
  mem h := h.mem
  respond _ n h := { h with response := rfl, position := congrArg (· + n) h.position }
  raise _ h := { h with fault := rfl }
  writeMode _ h := { h with mode := rfl }
  buildTable h := { h with table := rfl, tableValid := rfl }
  writeAcc _ _ h := { h with acc := by simp [RegFile.get_set, h.acc] }
  startSlot _ _ h := { h with acc := by simp [RegFile.get_set, h.acc], accValid := by simp [RegFile.get_set, h.accValid] }

theorem sees_sameBut (a : SlotIx) : Sees (SameBut a) a := fun h => ⟨h.accValid, fun _ => h.acc⟩

/-- Settles O52: agreement outside other slots is a lockstep relation that sees the slot named. -/
theorem slotsAreNotReadByOthers : Obligations.SlotsAreNotReadByOthers := by
  refine ⟨?_, ?_⟩
  · intro i a s t s' hi h hs
    have hsee : ∀ b : SlotIx, slotOf i = some b → Sees (SameBut a) b := by
      intro b hb
      obtain rfl := Option.some.inj (hi.symm.trans hb)
      exact sees_sameBut a
    exact ((lockstep_sameBut a).exec h hsee).exists_next hs
  · intro i a s t s' hi h hs
    have hsee : ∀ b : SlotIx, slotOf i = some b → Sees (SameBut a) b := fun b hb => by cases hi.symm.trans hb
    exact ((lockstep_sameBut a).exec h hsee).exists_next hs

/-! ### Values that were never written (10_state.md R21, R27) -/

theorem lockstep_sameValues : Lockstep SameValues where
  mode h := h.mode
  tableValid h := h.tableValid
  table h := h.table
  fault h := h.fault
  cfg h := h.cfg
  mem h := h.mem
  respond _ n h := { h with response := rfl, position := congrArg (· + n) h.position }
  raise _ h := { h with fault := rfl }
  writeMode _ h := { h with mode := rfl }
  buildTable h := { h with table := fun _ => rfl, tableValid := rfl }
  writeAcc a v h := by
    refine { h with acc := fun b hb => ?_ }
    by_cases e : b = a
    · simp [e]
    · simpa [RegFile.get_set_ne _ _ e] using h.acc b hb
  startSlot a v h := by
    refine { h with accValid := congrArg (RegFile.set · a true) h.accValid, acc := fun b hb => ?_ }
    by_cases e : b = a
    · simp [e]
    · have hb' := by simpa [RegFile.get_set_ne _ _ e] using hb
      simpa [RegFile.get_set_ne _ _ e] using h.acc b hb'

theorem sees_sameValues (a : SlotIx) : Sees SameValues a := fun h => ⟨by rw [h.accValid], h.acc a⟩

/-- A step takes the same item off both ports, and then the two go on alike. -/
theorem step_follows {s t : State} (h : SameValues s t) : Follows SameValues (step s) (step t) := by
  have htake (rest : List PortEvent) : SameValues { s with port := rest } { t with port := rest } := { h with port := rfl }
  have haddr : t.cfg.addrW = s.cfg.addrW := by rw [h.cfg]
  unfold step fetch
  rw [h.port, haddr]
  cases s.port with
  | nil => exact .next h
  | cons e rest =>
    cases e with
    | hostWrite x b => exact .next { htake rest with mem := congrArg (hostWriteByte · x b) h.mem }
    | command c =>
      cases hd : decode s.cfg.addrW c with
      | ok i => simpa [hd] using lockstep_sameValues.exec (htake rest) fun a _ => sees_sameValues a
      | error er =>
        cases er with
        | illegalCommand => simpa [hd] using lockstep_sameValues.illegalCommand (htake rest)
        | missingArguments => simpa [hd] using Follows.fault _
        | extraArguments => simpa [hd] using Follows.fault _
        | argumentTooWide => simpa [hd] using Follows.fault _

/-- Settles O51: agreement on the values that were written is a lockstep relation that sees every slot. -/
theorem unwrittenValuesAreUnseen : Obligations.UnwrittenValuesAreUnseen :=
  ⟨fun _ _ _ h hs => (step_follows h).exists_next hs, fun _ _ _ h hs => (step_follows h).eq_fault hs⟩

/-! ### Reset (10_state.md R35) -/

theorem runsTo_zero {s t : State} : RunsTo 0 s t ↔ t = s := by
  exact ⟨fun h => by cases h; rfl, by rintro rfl; rfl⟩

/-- A run is a step and the rest of the run. -/
theorem runsTo_succ {k : Nat} {s t : State} : RunsTo (k + 1) s t ↔ ∃ u : State, step s = .next u ∧ RunsTo k u t := by
  cases hs : step s with
  | next v =>
    have hr : RunsTo (k + 1) s t ↔ RunsTo k v t := by simp only [RunsTo, Host.Core.run, show core.step s = .next v from hs]
    exact hr.trans ⟨fun h => ⟨v, rfl, h⟩, by rintro ⟨u, hu, h⟩; cases hu; exact h⟩
  | fault f =>
    simp only [RunsTo, Host.Core.run, show core.step s = .fault f from hs]
    exact ⟨nofun, by rintro ⟨u, hu, _⟩; cases hu⟩
  | refused r =>
    simp only [RunsTo, Host.Core.run, show core.step s = .refused r from hs]
    exact ⟨nofun, by rintro ⟨u, hu, _⟩; cases hu⟩

/-- States that differ only in values never written stay so over a run. -/
theorem RunsTo.sameValues {k : Nat} {s t s' : State} (hr : RunsTo k s s') (h : SameValues s t) :
    ∃ t' : State, RunsTo k t t' ∧ SameValues s' t' := by
  induction k generalizing s t with
  | zero =>
    obtain rfl := runsTo_zero.mp hr
    exact ⟨t, runsTo_zero.mpr rfl, h⟩
  | succ k ih =>
    obtain ⟨u, hs, hr⟩ := runsTo_succ.mp hr
    obtain ⟨v, ht, huv⟩ := (step_follows h).exists_next hs
    obtain ⟨t', hr', h'⟩ := ih hr huv
    exact ⟨t', runsTo_succ.mpr ⟨v, ht, hr'⟩, h'⟩

/-- Right after reset no table is built and no slot is live, so what stands in TABLE and ACC is no value. -/
theorem sameValues_resetWith (c : Config) (m : List Host.Cell) (p : List PortEvent) (table acc : RegFile Word) :
    SameValues (State.resetWith c m p) { State.resetWith c m p with table := table, acc := acc } where
  mode := rfl
  tableValid := rfl
  table := nofun
  accValid := rfl
  acc a ha := by simp at ha
  fault := rfl
  cfg := rfl
  mem := rfl
  port := rfl
  response := rfl
  position := rfl

/-- Settles O47: the values are those of `resetWith`, and a run from other contents of TABLE and ACC stays beside it. -/
theorem resetValues : Obligations.ResetValues := by
  refine ⟨?_, ?_⟩
  · intro c m p
    exact ⟨rfl, rfl, fun a => by simp, rfl⟩
  · intro c m p table acc k t hr
    obtain ⟨u, hu, h⟩ := hr.sameValues (sameValues_resetWith c m p table acc)
    exact ⟨u, hu, h.response, h.fault, h.mode⟩

end Sys2Proof.Machine
end

section
/-! PROOFS. 20_memory.md: reading host memory by words and by regions, the reads of each mode, host writes, and that no command
writes memory. -/

namespace Sys2Proof.Machine

/-! ### MemRead (R51) -/

/-- A value is its lowest byte with the others above it. -/
theorem append_byte_eq_iff {n : Nat} {high : BitVec n} {b : Byte} {v : BitVec (n + 8)} :
    high ++ b = v ↔ b = v.extractLsb' 0 8 ∧ high = v.extractLsb' 8 n := by
  constructor
  · rintro rfl
    exact ⟨BitVec.extractLsb'_append_eq_right.symm, BitVec.extractLsb'_append_eq_left.symm⟩
  · rintro ⟨rfl, rfl⟩
    exact BitVec.extractLsb'_append_extractLsb'

/-- `MemRead` of one more byte is a byte read and a `MemRead` of the rest. -/
theorem memRead_succ_eq_some {m : List Host.Cell} {p n : Nat} {v : BitVec (8 * (n + 1))} :
    memRead m p (n + 1) = some v ↔
      readByte m p = some (v.extractLsb' 0 8) ∧ memRead m (p + 1) n = some (v.extractLsb' 8 (8 * n)) := by
  rw [memRead]
  cases readByte m p with
  | none => simp
  | some b =>
    cases memRead m (p + 1) n with
    | none => simp
    | some high => simpa using append_byte_eq_iff

/-- `MemRead` gives exactly the value whose byte `k` is the byte at `p + k`. -/
theorem memRead_eq_some {m : List Host.Cell} {p n : Nat} {v : BitVec (8 * n)} :
    memRead m p n = some v ↔ ∀ k : Nat, k < n → readByte m (p + k) = some (v.extractLsb' (8 * k) 8) := by
  induction n generalizing p with
  | zero => simpa [memRead] using Subsingleton.elim (0#0) v
  | succ n ih =>
    have hbyte (k : Nat) (hk : k < n) : (v.extractLsb' 8 (8 * n)).extractLsb' (8 * k) 8 = v.extractLsb' (8 * (k + 1)) 8 := by
      ext j hj
      have hlt : 8 * k + j < 8 * n := by omega
      simp [hlt, Nat.mul_succ, Nat.add_assoc, Nat.add_left_comm 8]
    rw [memRead_succ_eq_some, ih, Nat.forall_lt_succ_left]
    refine and_congr Iff.rfl (forall₂_congr fun k hk => ?_)
    rw [hbyte k hk, Nat.add_assoc, Nat.add_comm 1 k]

theorem memRead_isSome {m : List Host.Cell} {p n : Nat} :
    (memRead m p n).isSome = true ↔ ∀ k : Nat, k < n → readable m (p + k) = true := by
  induction n generalizing p with
  | zero => simp [memRead]
  | succ n ih =>
    have hstep : (memRead m p (n + 1)).isSome = true ↔ readable m p = true ∧ (memRead m (p + 1) n).isSome = true := by
      rw [memRead, readable]
      cases readByte m p <;> cases memRead m (p + 1) n <;> simp
    simp only [hstep, ih, Nat.forall_lt_succ_left, Nat.add_zero, Nat.add_assoc, Nat.add_comm 1]

/-- Settles O16: `memRead` is defined where all its bytes are readable, and its value is the one they make up. -/
theorem memReadIsLittleEndian : Obligations.MemReadIsLittleEndian := by
  refine ⟨?_, ?_⟩
  · intro m p n _ hr
    obtain ⟨v, hv⟩ := Option.isSome_iff_exists.mp (memRead_isSome.mpr hr)
    exact ⟨v, hv, memRead_eq_some.mp hv⟩
  · intro m p n k _ hk hr
    by_contra hne
    have hall := memRead_isSome.mp (Option.isSome_iff_ne_none.mpr hne)
    exact Bool.false_ne_true (hr.symm.trans (hall k hk))

/-! ### Regions (R52, R55) -/

theorem readBytes_succ_eq_some {m : List Host.Cell} {p n : Nat} {b : Byte} {bytes : List Byte} :
    readBytes m p (n + 1) = some (b :: bytes) ↔ readByte m p = some b ∧ readBytes m (p + 1) n = some bytes := by
  rw [readBytes]
  cases readByte m p with
  | none => simp
  | some b' => cases readBytes m (p + 1) n <;> simp

theorem allReadable_iff {m : List Host.Cell} {p n : Nat} :
    allReadable m p n = true ↔ ∀ k : Nat, k < n → readable m (p + k) = true := by
  induction n generalizing p with
  | zero => simp [allReadable, readBytes]
  | succ n ih =>
    have hstep : allReadable m p (n + 1) = true ↔ readable m p = true ∧ allReadable m (p + 1) n = true := by
      rw [allReadable, allReadable, readBytes, readable]
      cases readByte m p <;> cases readBytes m (p + 1) n <;> simp
    simp only [hstep, ih, Nat.forall_lt_succ_left, Nat.add_zero, Nat.add_assoc, Nat.add_comm 1]

theorem admitted_iff {s : State} {p n : Nat} :
    admitted s p n = true ↔ n = 0 ∨ (p + n ≤ 2 ^ s.cfg.addrW.bits ∧ ∀ k : Nat, k < n → readable s.mem (p + k) = true) := by
  simp [admitted, allReadable_iff]

theorem regionBytes_eq_some_iff {s : State} {p n : Nat} {bytes : List Byte} :
    regionBytes s p n = some bytes ↔ admitted s p n = true ∧ readBytes s.mem p n = some bytes := by
  simp [regionBytes]

/-- An admitted region has bytes, for all of them are readable. -/
theorem regionBytes_isSome {s : State} {p n : Nat} : (regionBytes s p n).isSome = true ↔ admitted s p n = true := by
  have hread (h : admitted s p n = true) : (readBytes s.mem p n).isSome = true := by
    obtain rfl | ⟨_, hr⟩ := admitted_iff.mp h
    · rfl
    · exact allReadable_iff.mpr hr
  by_cases h : admitted s p n = true
  · simp [regionBytes, h, hread h]
  · simp [regionBytes, h]

theorem regionBytes_eq_none {s : State} {p n : Nat} : regionBytes s p n = none ↔ admitted s p n = false := by
  simpa using not_congr (regionBytes_isSome (s := s) (p := p) (n := n))

/-- The bytes of a region are those `State.Region` names. -/
theorem regionBytes_eq_some_iff_region {s : State} {p n : Nat} {bytes : List Byte} :
    regionBytes s p n = some bytes ↔ bytes.length = n ∧ s.Region p bytes := by
  rw [regionBytes_eq_some_iff, readBytes_eq_some]
  constructor
  · rintro ⟨ha, rfl, hb⟩
    refine ⟨rfl, ?_⟩
    obtain h0 | ⟨htop, _⟩ := admitted_iff.mp ha
    · exact .inl (List.length_eq_zero_iff.mp h0)
    · exact .inr ⟨htop, hb⟩
  · rintro ⟨rfl, rfl | ⟨htop, hb⟩⟩
    · exact ⟨rfl, rfl, nofun⟩
    · exact ⟨admitted_iff.mpr (.inr ⟨htop, fun k hk => by simp [readable, hb k hk]⟩), rfl, hb⟩

/-- Settles O17, by what a region's bytes are and when it has any. -/
theorem admittedRegions : Obligations.AdmittedRegions :=
  ⟨fun _ _ _ _ => regionBytes_eq_some_iff_region, fun _ _ _ => regionBytes_isSome.trans admitted_iff⟩

/-! ### A region that is not admitted (R55, 60_exceptions.md R206) -/

/-- One address of a region at which it passes the top of the address space or is not readable keeps it from being admitted. -/
theorem regionBytes_eq_none_of_bad {s : State} {p n k : Nat} (hk : k < n)
    (hbad : 2 ^ s.cfg.addrW.bits < p + n ∨ readable s.mem (p + k) = false) : regionBytes s p n = none := by
  rw [regionBytes_eq_none, ← Bool.not_eq_true, admitted_iff]
  rintro (rfl | ⟨htop, hr⟩)
  · exact Nat.not_lt_zero k hk
  · obtain h | h := hbad
    · exact Nat.not_lt.mpr htop h
    · exact Bool.false_ne_true (h.symm.trans (hr k hk))

theorem foldRegion_of_bad {s : State} {p n k : Nat} (a : SlotIx) (hk : k < n)
    (hbad : 2 ^ s.cfg.addrW.bits < p + n ∨ readable s.mem (p + k) = false) :
    foldRegion a p n s = .next { s with fault := some .memoryFault, response := some (.fault .memoryFault) } := by
  rw [foldRegion, regionBytes_eq_none_of_bad hk hbad]
  rfl

/-- Settles O30: the checks before it pass, and the region's raises the fault on the unchanged state. -/
theorem regionNotAdmittedFaults : Obligations.RegionNotAdmittedFaults := by
  refine ⟨?_, ?_⟩
  · intro a base len off cnt k s hf hl hin hk hbad
    have hb : outOfBounds len off cnt = false := by simpa [outOfBounds] using hin
    rw [exec_update_eq, withLiveSlot_running _ hf hl, hb]
    exact foldRegion_of_bad a hk hbad
  · intro a ptr cnt k s hf hl hk hbad
    rw [exec_updateRaw_eq, withLiveSlot_running _ hf hl]
    exact foldRegion_of_bad a hk hbad

/-! ### Who writes memory (R53, R60, R65) -/

/-- Settles O19: the step makes the write and nothing else, and a write is read back where it was made. -/
theorem hostWriteIsSeen : Obligations.HostWriteIsSeen := by
  intro s x b rest hp hwf
  have hstep : step s = .next { s with port := rest, mem := hostWriteByte s.mem x b } := by
    simp [step, fetch, hp, applyHostWrite]
  exact ⟨_, hstep, readByte_hostWriteByte_same _ _ _, fun _ hy => readByte_hostWriteByte_ne _ _ hy, hostWriteByte_wf x b hwf⟩

theorem exec_mem {i : Instr} {s t : State} (h : exec i s = .next t) : t.mem = s.mem := by
  obtain ⟨c, _, rfl⟩ | ⟨_, c, _, rfl⟩ | ⟨_, _, rfl⟩ | ⟨_, r, u, he, rfl⟩ := exec_next h
  · rfl
  · rfl
  · rfl
  · obtain ⟨_, hm, _⟩ := he.frame
    exact hm

/-- Settles O20: no command writes memory, and of what else a step can do only the host write does. -/
theorem blockNeverWritesMemory : Obligations.BlockNeverWritesMemory := by
  refine ⟨fun i s t h x => by rw [exec_mem h], ?_⟩
  intro s t h hno
  obtain ⟨_, rfl⟩ | ⟨x, b, rest, hp, _⟩ | ⟨c, rest, i, _, _, h⟩ | ⟨c, rest, _, _, h⟩ := step_next h
  · rfl
  · exact absurd hp (hno x b rest)
  · simpa using exec_mem h
  · obtain ⟨f, c, rfl⟩ := illegalCommand_next h
    rfl

end Sys2Proof.Machine
end

section
/-! PROOFS. 20_memory.md R56: the reads each mode issues for a region, the bytes they cover, and what folding them gives. -/

namespace Sys2Proof.Machine

/-! ### The reads of a run, and the bytes they cover -/

theorem readRun_eq_map (w : ReadWidth) (p k : Nat) :
    readRun w p k = (List.range k).map (fun j => { addr := p + readSize w * j, width := w }) := by
  induction k generalizing p with
  | zero => rfl
  | succ k ih =>
    rw [readRun, ih, List.range_succ_eq_map, List.map_cons, List.map_map]
    refine congrArg₂ _ rfl (List.map_congr_left fun j _ => ?_)
    simp [Nat.mul_succ, Nat.add_assoc, Nat.add_comm (readSize w)]

/-- The addresses of the bytes a list of reads covers, in the order they are read. -/
def coveredBytes (xs : List Access) : List Nat :=
  xs.flatMap (fun x => (List.range (readSize x.width)).map (fun k => x.addr + k))

theorem coveredBytes_append (xs ys : List Access) : coveredBytes (xs ++ ys) = coveredBytes xs ++ coveredBytes ys :=
  List.flatMap_append

/-- A run of reads covers its stretch of memory once, in ascending order. -/
theorem coveredBytes_readRun (w : ReadWidth) (p k : Nat) : coveredBytes (readRun w p k) = List.range' p (readSize w * k) := by
  induction k generalizing p with
  | zero => rfl
  | succ k ih =>
    have hcons : coveredBytes (readRun w p (k + 1)) =
        List.range' p (readSize w) ++ coveredBytes (readRun w (p + readSize w) k) := by
      rw [List.range'_eq_map_range]; rfl
    rw [hcons, ih, Nat.mul_succ, Nat.add_comm (readSize w * k), ← List.range'_append, Nat.one_mul]

/-- Word reads and then byte reads of what is left cover the whole region. -/
theorem coveredBytes_words_bytes (w : ReadWidth) (p n : Nat) :
    coveredBytes (readRun w p (n / readSize w) ++ readRun .byte (p + readSize w * (n / readSize w)) (n % readSize w)) =
      List.range' p n := by
  have hbyte : readSize .byte * (n % readSize w) = n % readSize w := Nat.one_mul _
  rw [coveredBytes_append, coveredBytes_readRun, coveredBytes_readRun, hbyte]
  conv_rhs => rw [← Nat.div_add_mod n (readSize w), ← List.range'_append, Nat.one_mul]

theorem coveredBytes_accessPlan (st : Strategy) (p n : Nat) : coveredBytes (accessPlan st p n) = List.range' p n := by
  cases st with
  | softwareTable => exact (coveredBytes_readRun .byte p n).trans (congrArg (List.range' p) (Nat.one_mul n))
  | hardwareNarrow => exact coveredBytes_words_bytes .word32 p n
  | hardwareWide => exact coveredBytes_words_bytes .word64 p n

/-! ### What a read of several bytes gives -/

theorem memRead_byte {m : List Host.Cell} {p : Nat} {b : Byte} (h : readByte m p = some b) : memRead m p 1 = some b := by
  rw [memRead, h, memRead]
  exact congrArg some (BitVec.zero_width_append 0#0 b)

theorem memRead_cons {m : List Host.Cell} {p n : Nat} {b : Byte} {high : BitVec (8 * n)} (h : readByte m p = some b)
    (hh : memRead m (p + 1) n = some high) : memRead m p (n + 1) = some ((high ++ b).cast (Nat.mul_succ 8 n).symm) := by
  rw [memRead, h, hh]

theorem memRead_four {m : List Host.Cell} {p : Nat} {b0 b1 b2 b3 : Byte} (h : readBytes m p 4 = some [b0, b1, b2, b3]) :
    memRead m p 4 = some (le32 b0 b1 b2 b3) := by
  simp only [readBytes_succ_eq_some] at h
  obtain ⟨h0, h1, h2, h3, _⟩ := h
  exact memRead_cons h0 (memRead_cons h1 (memRead_cons h2 (memRead_byte h3)))

theorem memRead_eight {m : List Host.Cell} {p : Nat} {b0 b1 b2 b3 b4 b5 b6 b7 : Byte}
    (h : readBytes m p 8 = some [b0, b1, b2, b3, b4, b5, b6, b7]) :
    memRead m p 8 = some (le64 b0 b1 b2 b3 b4 b5 b6 b7) := by
  simp only [readBytes_succ_eq_some] at h
  obtain ⟨h0, h1, h2, h3, h4, h5, h6, h7, _⟩ := h
  have high4 := memRead_cons h4 (memRead_cons h5 (memRead_cons h6 (memRead_byte h7)))
  exact memRead_cons h0 (memRead_cons h1 (memRead_cons h2 (memRead_cons h3 high4)))

theorem readBytes_append {m : List Host.Cell} {p n : Nat} {xs ys : List Byte} :
    readBytes m p (xs.length + n) = some (xs ++ ys) ↔
      readBytes m p xs.length = some xs ∧ readBytes m (p + xs.length) n = some ys := by
  induction xs generalizing p with
  | nil => simp [readBytes]
  | cons b xs ih =>
    rw [List.length_cons, Nat.add_right_comm, List.cons_append, readBytes_succ_eq_some, readBytes_succ_eq_some, ih,
      Nat.add_assoc, Nat.add_comm 1, and_assoc]

theorem readBytes_drop {m : List Host.Cell} {p n : Nat} {bytes : List Byte} (hn : n ≤ bytes.length)
    (h : readBytes m p bytes.length = some bytes) : readBytes m (p + n) (bytes.drop n).length = some (bytes.drop n) := by
  obtain ⟨xs, ys, rfl, rfl⟩ : ∃ xs ys, bytes = xs ++ ys ∧ xs.length = n :=
    ⟨_, _, (List.take_append_drop n bytes).symm, List.length_take_of_le hn⟩
  rw [List.length_append] at h
  rw [List.drop_left]
  exact (readBytes_append.mp h).2

/-! ### Folding the reads -/

theorem foldAccesses_cons (table : RegFile Word) (st : Strategy) (m : List Host.Cell) (r : Word) (x : Access) (xs : List Access) :
    foldAccesses table st m r (x :: xs) = (foldAccess table st m r x).bind (foldAccesses table st m · xs) := by
  rw [foldAccesses]
  cases foldAccess table st m r x <;> rfl

theorem foldAccesses_append (table : RegFile Word) (st : Strategy) (m : List Host.Cell) (r : Word) (xs ys : List Access) :
    foldAccesses table st m r (xs ++ ys) = (foldAccesses table st m r xs).bind (foldAccesses table st m · ys) := by
  induction xs generalizing r with
  | nil => rfl
  | cons x xs ih => simp only [List.cons_append, foldAccesses_cons, ih, Option.bind_assoc]

/-- `F k r bytes` folds the first `k` reads of a width: none of them leaves `r`, and the first of them folds the first chunk of
`bytes`, which it reads from memory. -/
structure FoldsReads (table : RegFile Word) (st : Strategy) (w : ReadWidth) (F : Nat → Word → List Byte → Word) : Prop where
  zero : ∀ (r : Word) (bytes : List Byte), F 0 r bytes = r
  succ : ∀ (m : List Host.Cell) (p k : Nat) (r : Word) (chunk rest : List Byte), chunk.length = readSize w →
    readBytes m p (readSize w) = some chunk →
    ∃ v : Word, foldAccess table st m r { addr := p, width := w } = some v ∧ F (k + 1) r (chunk ++ rest) = F k v rest

theorem foldsReads_byte (table : RegFile Word) (st : Strategy) :
    FoldsReads table st .byte (fun k r bytes => (bytes.take k).foldl (byteStep table st) r) where
  zero _ _ := rfl
  succ m p k r chunk rest hl h := by
    obtain ⟨b, rfl⟩ := List.length_eq_one_iff.mp hl
    obtain ⟨hb, _⟩ := readBytes_succ_eq_some.mp h
    exact ⟨_, congrArg (Option.map _) (memRead_byte hb), rfl⟩

theorem foldsReads_word32 (table : RegFile Word) (st : Strategy) : FoldsReads table st .word32 foldWords32 where
  zero r bytes := by simp [foldWords32]
  succ m p k r chunk rest hl h := by
    obtain ⟨b0, b1, b2, b3, rfl⟩ := List.length_eq_four.mp hl
    exact ⟨_, congrArg (Option.map _) (memRead_four h), rfl⟩

theorem foldsReads_word64 (table : RegFile Word) (st : Strategy) : FoldsReads table st .word64 foldWords64 where
  zero r bytes := by simp [foldWords64]
  succ m p k r chunk rest hl h := by
    match chunk, hl with
    | [b0, b1, b2, b3, b4, b5, b6, b7], _ => exact ⟨_, congrArg (Option.map _) (memRead_eight h), rfl⟩

/-- Folding a run of reads folds the bytes they cover. -/
theorem FoldsReads.readRun {table : RegFile Word} {st : Strategy} {w : ReadWidth} {F : Nat → Word → List Byte → Word}
    (hF : FoldsReads table st w F) {m : List Host.Cell} {p k : Nat} {r : Word} {bytes : List Byte}
    (hk : readSize w * k ≤ bytes.length) (h : readBytes m p bytes.length = some bytes) :
    foldAccesses table st m r (readRun w p k) = some (F k r bytes) := by
  induction k generalizing p r bytes with
  | zero => rw [hF.zero]; rfl
  | succ k ih =>
    rw [Nat.mul_succ] at hk
    obtain ⟨chunk, rest, rfl, hc⟩ : ∃ chunk rest, bytes = chunk ++ rest ∧ chunk.length = readSize w :=
      ⟨_, _, (List.take_append_drop (readSize w) bytes).symm, List.length_take_of_le (by omega)⟩
    rw [List.length_append] at h hk
    obtain ⟨hchunk, hrest⟩ := readBytes_append.mp h
    rw [hc] at hchunk hrest hk
    obtain ⟨v, hv, hstep⟩ := hF.succ m p k r chunk rest hc hchunk
    rw [Machine.readRun, foldAccesses_cons, hv, hstep]
    exact ih (by omega) hrest

/-- Byte reads of all the bytes fold all of them. -/
theorem foldAccesses_bytes {m : List Host.Cell} {p : Nat} {bytes : List Byte} (table : RegFile Word) (st : Strategy) (r : Word)
    (h : readBytes m p bytes.length = some bytes) :
    foldAccesses table st m r (readRun .byte p bytes.length) = some (bytes.foldl (byteStep table st) r) := by
  simpa using (foldsReads_byte table st).readRun (r := r) (Nat.one_mul _).le h

/-- Word reads and then byte reads of what is left fold the words, and then the bytes. -/
theorem foldAccesses_words_bytes {table : RegFile Word} {st : Strategy} {w : ReadWidth} {F : Nat → Word → List Byte → Word}
    (hF : FoldsReads table st w F) {m : List Host.Cell} {p : Nat} {bytes : List Byte} (r : Word)
    (h : readBytes m p bytes.length = some bytes) :
    let k := bytes.length / readSize w
    foldAccesses table st m r
        (readRun w p k ++ readRun .byte (p + readSize w * k) (bytes.length % readSize w)) =
      some ((bytes.drop (readSize w * k)).foldl (byteStep table st) (F k r bytes)) := by
  intro k
  have hk : readSize w * k ≤ bytes.length := Nat.mul_div_le _ _
  have hmod : bytes.length % readSize w = (bytes.drop (readSize w * k)).length := by rw [List.length_drop, Nat.mod_eq_sub]
  have hrest := readBytes_drop hk h
  rw [foldAccesses_append, hF.readRun hk h, hmod]
  exact foldAccesses_bytes table st _ hrest

/-- Folding what a mode's reads give is its path over the bytes they read (R56, 40_reduction.md R108-R111). -/
theorem foldAccesses_accessPlan {m : List Host.Cell} {p : Nat} {bytes : List Byte} (table : RegFile Word) (st : Strategy)
    (r : Word) (h : readBytes m p bytes.length = some bytes) :
    foldAccesses table st m r (accessPlan st p bytes.length) = some (path table st r bytes) := by
  cases st with
  | softwareTable => exact foldAccesses_bytes table .softwareTable r h
  | hardwareNarrow => exact foldAccesses_words_bytes (foldsReads_word32 table .hardwareNarrow) r h
  | hardwareWide => exact foldAccesses_words_bytes (foldsReads_word64 table .hardwareWide) r h

/-- Settles O18: a plan is one or two runs of reads, each of which covers its stretch of the region and folds it. -/
theorem readsOfARegion : Obligations.ReadsOfARegion := by
  refine ⟨?_, ?_, ?_, ?_, ?_⟩
  · intro p n
    simp [accessPlan, readRun_eq_map, readSize]
  · intro p n
    simp [accessPlan, readRun_eq_map, readSize]
  · intro p n
    simp [accessPlan, readRun_eq_map, readSize]
  · intro m p n
    exact (coveredBytes_accessPlan m p n).trans List.range'_eq_map_range
  · intro table m s p n bytes r h
    obtain ⟨_, hread⟩ := regionBytes_eq_some_iff.mp h
    obtain rfl := readBytes_length hread
    exact foldAccesses_accessPlan table m r hread

end Sys2Proof.Machine
end

section
/-! PROOFS. 20_memory.md R64: detection and the table build, triggered by any commands in any order. Beside the slots and the
response, each such command does one of four things to the state (nothing, detection, an update's preparation, the table build),
and these commute. -/

namespace Sys2Proof.Machine

/-! ### Detection, the preparation and the table build commute (41_capability.md R120, 42_table.md R140, R142) -/

theorem detect_of_mode_ne {s : State} (h : s.mode ≠ .undetected) : detect s = s := by
  obtain ⟨_, e⟩ | ⟨hm, _⟩ | ⟨hm, _⟩ | ⟨hm, _⟩ := detect_cases s
  · exact e
  · exact absurd hm h
  · exact absurd hm h
  · exact absurd hm h

theorem detect_detect (s : State) : detect (detect s) = detect s :=
  detect_of_mode_ne ((detect_mode s).trans_ne (detectedMode_ne s))

theorem commute_detect_buildTable : Function.Commute detect buildTable := by
  intro s
  unfold detect
  rw [buildTable_mode, buildTable_cfg]
  split
  · split <;> rfl
  all_goals rfl

theorem lazyBuild_buildTable (s : State) : lazyBuild (buildTable s) = buildTable s := by simp [lazyBuild]

theorem buildTable_lazyBuild (s : State) : buildTable (lazyBuild s) = buildTable s := by
  obtain ⟨_, _, e⟩ | ⟨_, e⟩ := lazyBuild_cases s <;> rw [e]
  rfl

theorem commute_detect_prepare : Function.Commute detect prepare := by
  intro s
  have hp : detect (prepare s) = prepare s := detect_of_mode_ne ((prepare_mode s).trans_ne (detectedMode_ne s))
  rw [hp, prepare, prepare, detect_detect]

theorem commute_prepare_buildTable : Function.Commute prepare buildTable := by
  intro s
  rw [prepare, prepare, commute_detect_buildTable.eq, lazyBuild_buildTable, buildTable_lazyBuild]

/-- What an initialising command that does not fault does beside the slots and the response. An update out of bounds is rejected
before its preparation (60_exceptions.md R205, R206); the commands that initialise nothing stand as the identity. -/
def initialisationOf : Instr → State → State
  | .accNew _ => detect
  | .setMode _ => id
  | .buildTable => buildTable
  | .update _ _ len off cnt => if outOfBounds len off cnt then id else prepare
  | .updateOne _ _ => prepare
  | .updateRaw _ _ _ => prepare
  | .finalize _ => id
  | .getMode => id
  | .tableRead _ => id

theorem initialisationOf_cases (i : Instr) :
    initialisationOf i = id ∨ initialisationOf i = detect ∨ initialisationOf i = prepare ∨ initialisationOf i = buildTable := by
  cases i with
  | accNew => exact .inr (.inl rfl)
  | buildTable => exact .inr (.inr (.inr rfl))
  | update a base len off cnt =>
    rw [initialisationOf]
    split
    · exact .inl rfl
    · exact .inr (.inr (.inl rfl))
  | updateOne | updateRaw => exact .inr (.inr (.inl rfl))
  | setMode | finalize | getMode | tableRead => exact .inl rfl

/-- What commutes with the three commutes with what any command does. -/
theorem commute_initialisationOf {g : State → State} (hd : Function.Commute g detect) (hp : Function.Commute g prepare)
    (hb : Function.Commute g buildTable) (i : Instr) : Function.Commute g (initialisationOf i) := by
  obtain e | e | e | e := initialisationOf_cases i <;> rw [e]
  · exact .id_right
  · exact hd
  · exact hp
  · exact hb

theorem initialisationOf_comm (i j : Instr) (s : State) :
    initialisationOf i (initialisationOf j s) = initialisationOf j (initialisationOf i s) := by
  have hd : Function.Commute detect (initialisationOf i) :=
    commute_initialisationOf (.refl _) commute_detect_prepare commute_detect_buildTable i
  have hp : Function.Commute prepare (initialisationOf i) :=
    commute_initialisationOf commute_detect_prepare.symm (.refl _) commute_prepare_buildTable i
  have hb : Function.Commute buildTable (initialisationOf i) :=
    commute_initialisationOf commute_detect_buildTable.symm commute_prepare_buildTable.symm (.refl _) i
  exact commute_initialisationOf hd.symm hp.symm hb.symm j s

/-! ### What the commands do to the state beside the slots -/

/-- Two states that agree on the block apart from its slots, and on what the host provides. -/
structure SameButSlots (s t : State) : Prop where
  mode : t.mode = s.mode
  table : t.table = s.table
  tableValid : t.tableValid = s.tableValid
  fault : t.fault = s.fault
  cfg : t.cfg = s.cfg
  mem : t.mem = s.mem

theorem SameButSlots.refl (s : State) : SameButSlots s s := ⟨rfl, rfl, rfl, rfl, rfl, rfl⟩

theorem SameButSlots.trans {s t u : State} (h : SameButSlots s t) (h' : SameButSlots t u) : SameButSlots s u :=
  ⟨h'.mode.trans h.mode, h'.table.trans h.table, h'.tableValid.trans h.tableValid, h'.fault.trans h.fault, h'.cfg.trans h.cfg,
    h'.mem.trans h.mem⟩

theorem lockstep_sameButSlots : Lockstep SameButSlots where
  mode h := h.mode
  tableValid h := h.tableValid
  table h _ := h.table
  fault h := h.fault
  cfg h := h.cfg
  mem h := h.mem
  respond _ _ h := { h with }
  raise _ h := { h with fault := rfl }
  writeMode _ h := { h with mode := rfl }
  buildTable h := { h with table := rfl, tableValid := rfl }
  writeAcc _ _ h := { h with }
  startSlot _ _ h := { h with }

theorem SameButSlots.initialisationOf {s t : State} (h : SameButSlots s t) (i : Instr) :
    SameButSlots (initialisationOf i s) (initialisationOf i t) := by
  obtain e | e | e | e := initialisationOf_cases i <;> rw [e]
  · exact h
  · exact lockstep_sameButSlots.detect h
  · exact lockstep_sameButSlots.prepare h
  · exact lockstep_sameButSlots.buildTable h

/-- A command that does not fault, in a block that is not faulted, completes or is rejected. -/
theorem exec_of_fault_none {i : Instr} {s t : State} (h : exec i s = .next t) (hf : t.fault = none) :
    s.fault = none ∧
      ((Rejects i s ∧ t = { s with response := some .outOfRange, position := s.position + 1 }) ∨
       ∃ r u, Effect i s r u ∧ t = { u with response := some (.ok r), position := u.position + 1 }) := by
  obtain ⟨c, hc, rfl⟩ | ⟨_, c, _, rfl⟩ | ⟨hs, hr, e⟩ | ⟨hs, he⟩ := exec_next h
  · cases hc.symm.trans hf
  · cases hf
  · exact ⟨hs, .inl ⟨hr, e⟩⟩
  · exact ⟨hs, .inr he⟩

/-- The effect of an initialising command, its slot apart. -/
theorem Effect.sameButSlots {i : Instr} {s u : State} {r : Option Word} (h : Effect i s r u) (hi : initialises i = true) :
    SameButSlots (initialisationOf i s) u := by
  cases i with
  | accNew a => obtain ⟨_, _, rfl⟩ := h; exact { SameButSlots.refl (detect s) with }
  | buildTable => obtain ⟨_, rfl⟩ := h; exact .refl _
  | update a base len off cnt =>
    obtain ⟨_, hb, _, _, _, rfl⟩ := h
    have hin : outOfBounds len off cnt = false := by simpa [outOfBounds] using hb
    simp only [Machine.initialisationOf, hin]
    exact { SameButSlots.refl (prepare s) with }
  | updateOne a b => obtain ⟨_, _, rfl⟩ := h; exact { SameButSlots.refl (prepare s) with }
  | updateRaw a ptr cnt => obtain ⟨_, _, _, _, rfl⟩ := h; exact { SameButSlots.refl (prepare s) with }
  | setMode | finalize | getMode | tableRead => cases hi

/-- A rejected command is an update out of bounds, which initialises nothing. -/
theorem Rejects.initialisationOf_eq {i : Instr} {s : State} (h : Rejects i s) : initialisationOf i s = s := by
  cases i with
  | update a base len off cnt => obtain ⟨_, hb⟩ := h; simp [Machine.initialisationOf, outOfBounds, hb]
  | accNew | setMode | buildTable | updateOne | updateRaw | finalize | getMode | tableRead => cases h

theorem exec_sameButSlots {i : Instr} {s t : State} (hi : initialises i = true) (h : exec i s = .next t)
    (hf : t.fault = none) : SameButSlots (initialisationOf i s) t := by
  obtain ⟨_, ⟨hr, rfl⟩ | ⟨r, u, he, rfl⟩⟩ := exec_of_fault_none h hf
  · rw [hr.initialisationOf_eq]
    exact { SameButSlots.refl s with }
  · exact { he.sameButSlots hi with }

/-! ### Sequences -/

/-- What a sequence of initialising commands does beside the slots and the response. -/
def initialisationOfAll (cs : List Instr) (s : State) : State := cs.foldl (fun u i => initialisationOf i u) s

theorem SameButSlots.initialisationOfAll {s t : State} (h : SameButSlots s t) (cs : List Instr) :
    SameButSlots (initialisationOfAll cs s) (initialisationOfAll cs t) := by
  induction cs generalizing s t with
  | nil => exact h
  | cons i cs ih => exact ih (h.initialisationOf i)

/-- FAULT is sticky, so a sequence that ends unfaulted began so. -/
theorem execAll_fault_none {cs : List Instr} {s t : State} (h : execAll cs s = .next t) (hf : t.fault = none) :
    s.fault = none := by
  induction cs generalizing s with
  | nil => cases h; exact hf
  | cons i cs ih =>
    obtain ⟨u, hu, h⟩ := execAll_cons_next.mp h
    obtain ⟨hs, _⟩ := exec_of_fault_none hu (ih h)
    exact hs

theorem execAll_sameButSlots {cs : List Instr} {s t : State} (hi : ∀ i ∈ cs, initialises i = true)
    (h : execAll cs s = .next t) (hf : t.fault = none) : SameButSlots (initialisationOfAll cs s) t := by
  induction cs generalizing s with
  | nil => cases h; exact .refl _
  | cons i cs ih =>
    obtain ⟨hi0, his⟩ := List.forall_mem_cons.mp hi
    obtain ⟨u, hu, h⟩ := execAll_cons_next.mp h
    have hiu := exec_sameButSlots hi0 hu (execAll_fault_none h hf)
    exact (hiu.initialisationOfAll cs).trans (ih his h)

theorem initialisationOfAll_perm {cs ds : List Instr} (h : cs.Perm ds) (s : State) :
    initialisationOfAll cs s = initialisationOfAll ds s :=
  h.foldl_eq' (fun i _ j _ u => initialisationOf_comm j i u) s

/-- Settles O60: both orders do the same beside the slots, because what each command does commutes with what any other does. -/
theorem initialisationConvergesInEveryOrder : Obligations.InitialisationConvergesInEveryOrder := by
  intro cs ds s t u hperm hi _ ht hft hu hfu
  have hcs := execAll_sameButSlots hi ht hft
  have hds := execAll_sameButSlots (fun i h => hi i (hperm.mem_iff.mpr h)) hu hfu
  rw [← initialisationOfAll_perm hperm] at hds
  exact ⟨hcs.mode.trans hds.mode.symm, hcs.tableValid.trans hds.tableValid.symm, hcs.table.trans hds.table.symm⟩

/-! ### Two commands -/

theorem exec_ok_fault_none {i : Instr} {s t : State} {r : Option Word} (h : exec i s = .next t)
    (hr : t.response = some (.ok r)) : t.fault = none := by
  obtain ⟨c, _, rfl⟩ | ⟨_, c, _, rfl⟩ | ⟨_, _, rfl⟩ | ⟨hf, q, u, he, rfl⟩ := exec_next h
  · cases hr
  · cases hr
  · cases hr
  · obtain ⟨_, _, _, hfu, _⟩ := he.frame
    exact hfu.trans hf

theorem execAll_pair {i j : Instr} {s t u : State} (ht : exec i s = .next t) (hu : exec j t = .next u) :
    execAll [i, j] s = .next u :=
  execAll_cons_next.mpr ⟨t, ht, execAll_cons_next.mpr ⟨u, hu, rfl⟩⟩

/-- Settles O53: two orders of two commands are two orders of a sequence, and status OK leaves the block unfaulted. -/
theorem initialisationConverges : Obligations.InitialisationConverges := by
  intro i j s s1 s2 u1 u2 q1 q2 v1 v2 hi hj hT hs1 _ hs2 hq2 hu1 _ hu2 hv2
  have hboth : ∀ c ∈ [i, j], initialises c = true := by simp [hi, hj]
  exact initialisationConvergesInEveryOrder [i, j] [j, i] s s2 u2 (.swap j i []) hboth hT
    (execAll_pair hs1 hs2) (exec_ok_fault_none hs2 hq2) (execAll_pair hu1 hu2) (exec_ok_fault_none hu2 hv2)

end Sys2Proof.Machine
end

section
/-! PROOFS. 30_encoding.md R70-R76, R79, R82, R83: the fields of a word and the rows of R75, the decoder as a legality check before the
argument words, the round trip, the illegal words, and where a RESULT stands. -/

namespace Sys2Proof

/-! ### The rows of R75, field by field -/

/-- The five fields cover a word (30_encoding.md R71). -/
theorem word_eq_iff_fields {x y : Word} : x = y ↔
    opField x = opField y ∧ mField x = mField y ∧ zField x = zField y ∧ immField x = immField y ∧ accField x = accField y := by
  refine ⟨fun h => h ▸ ⟨rfl, rfl, rfl, rfl, rfl⟩, ?_⟩
  rintro ⟨hop, hm, hz, hi, ha⟩
  simp only [opField, mField, zField, immField, accField, BitVec.toNat_eq, BitVec.extractLsb'_toNat,
    Nat.shiftRight_eq_div_pow] at *
  omega

/-- A mask of R75 takes each field whole or not at all, OP and Z always, and a pattern is 0 outside OP. -/
theorem row_shape : ∀ r ∈ opcodeRows,
    opField r.mask = BitVec.allOnes 4 ∧ (mField r.mask = 0 ∨ mField r.mask = BitVec.allOnes 2) ∧
      zField r.mask = BitVec.allOnes 10 ∧ (immField r.mask = 0 ∨ immField r.mask = BitVec.allOnes 8) ∧
      (accField r.mask = 0 ∨ accField r.mask = BitVec.allOnes 8) ∧
      mField r.pattern = 0 ∧ zField r.pattern = 0 ∧ immField r.pattern = 0 ∧ accField r.pattern = 0 := by
  decide

/-- A mask that takes a field whole or not at all. -/
theorem and_eq_zero_iff_of_mask {n : Nat} {v k : BitVec n} (hk : k = 0 ∨ k = BitVec.allOnes n) :
    v &&& k = 0 ↔ k = 0 ∨ v = 0 := by
  obtain rfl | rfl := hk
  · simp
  · rw [BitVec.and_allOnes]
    refine ⟨.inr, ?_⟩
    rintro (h | h)
    · rw [← BitVec.and_allOnes (x := v), h]
      exact BitVec.and_zero
    · exact h

/-- A word matches a row exactly when it has the row's OP and is 0 in every field the mask takes (R75). -/
theorem rowMatches_iff {r : OpcodeRow} (hr : r ∈ opcodeRows) {x : Word} : rowMatches r x = true ↔
    opField x = opField r.pattern ∧ (mField r.mask = 0 ∨ mField x = 0) ∧ zField x = 0 ∧
      (immField r.mask = 0 ∨ immField x = 0) ∧ (accField r.mask = 0 ∨ accField x = 0) := by
  obtain ⟨hop, hm, hz, hi, ha, pm, pz, pi, pa⟩ := row_shape r hr
  rw [← and_eq_zero_iff_of_mask hm, ← and_eq_zero_iff_of_mask hi, ← and_eq_zero_iff_of_mask ha, rowMatches, beq_iff_eq,
    word_eq_iff_fields, pm, pz, pi, pa]
  simp only [opField, mField, zField, immField, accField, BitVec.extractLsb'_and] at *
  rw [hop, hz, BitVec.and_allOnes, BitVec.and_allOnes]

/-- Whether a word with this OP is a command, given which of its fields M, Z, IMM8 and ACC are 0 (R74). -/
def zerosHold (op : BitVec 4) (m0 z0 i0 a0 : Bool) : Bool :=
  if op = 0x1 ∨ op = 0x4 ∨ op = 0x6 ∨ op = 0x7 then m0 && z0 && i0
  else if op = 0x2 then z0 && i0 && a0
  else if op = 0x3 ∨ op = 0x8 then m0 && z0 && i0 && a0
  else if op = 0x5 then m0 && z0
  else if op = 0x9 then m0 && z0 && a0
  else false

/-- `zerosHold` is the rows of R75, read field by field. -/
theorem any_row_eq_zerosHold : ∀ (op : BitVec 4) (m0 z0 i0 a0 : Bool),
    opcodeRows.any (fun r => op == opField r.pattern && (mField r.mask == 0 || m0) && z0 && (immField r.mask == 0 || i0) &&
      (accField r.mask == 0 || a0)) = zerosHold op m0 z0 i0 a0 := by
  decide

/-- The words that are no command, opcode by opcode and field by field (R76). -/
theorem not_zerosHold : ∀ (op : BitVec 4) (m0 z0 i0 a0 : Bool), (!zerosHold op m0 z0 i0 a0) =
    (op == 0x0 || decide (0xA ≤ op.toNat) || !z0 || (!m0 && op != 0x2) || (!i0 && op != 0x5 && op != 0x9) ||
      (!a0 && (op == 0x2 || op == 0x3 || op == 0x8 || op == 0x9))) := by
  decide

/-- Legality is a matter of OP and of which fields are 0 (R74-R76). -/
theorem legalWord_eq_zerosHold (x : Word) :
    legalWord x = zerosHold (opField x) (mField x == 0) (zField x == 0) (immField x == 0) (accField x == 0) := by
  rw [← any_row_eq_zerosHold, Bool.eq_iff_iff, legalWord, List.any_eq_true, List.any_eq_true]
  refine exists_congr fun r => and_congr_right fun hr => ?_
  simp only [rowMatches_iff hr, Bool.and_eq_true, Bool.or_eq_true, beq_iff_eq, and_assoc]

theorem legalWord_eq_false_iff_fields {x : Word} : legalWord x = false ↔
    opField x = 0x0 ∨ 0xA ≤ (opField x).toNat ∨ zField x ≠ 0 ∨ (mField x ≠ 0 ∧ opField x ≠ 0x2) ∨
      (immField x ≠ 0 ∧ opField x ≠ 0x5 ∧ opField x ≠ 0x9) ∨
      (accField x ≠ 0 ∧ (opField x = 0x2 ∨ opField x = 0x3 ∨ opField x = 0x8 ∨ opField x = 0x9)) := by
  rw [legalWord_eq_zerosHold, ← Bool.not_eq_true', not_zerosHold]
  simp [and_assoc, or_assoc]

/-- The OP of a legal word is 0x1-0x9, and which of its fields are 0 (R74). -/
theorem fields_of_legalWord {x : Word} (hx : legalWord x = true) : (opField x ≠ 0x0 ∧ (opField x).toNat < 0xA) ∧
    zField x = 0 ∧ (opField x ≠ 0x2 → mField x = 0) ∧ (opField x ≠ 0x5 ∧ opField x ≠ 0x9 → immField x = 0) ∧
    (opField x = 0x2 ∨ opField x = 0x3 ∨ opField x = 0x8 ∨ opField x = 0x9 → accField x = 0) := by
  have h := mt legalWord_eq_false_iff_fields.mpr (Bool.not_eq_false _ ▸ hx)
  simp only [not_or] at h
  obtain ⟨h0, hA, hz, hm, hi, ha⟩ := h
  exact ⟨⟨h0, Nat.lt_of_not_le hA⟩, not_not.mp hz, fun e => not_not.mp fun n => hm ⟨n, e⟩, fun e => not_not.mp fun n => hi ⟨n, e⟩,
    fun e => not_not.mp fun n => ha ⟨n, e⟩⟩

/-! ### The decoder: legality first, then the argument words -/

/-- The command of a legal word whose opcode takes no argument words (R74). -/
def plainCommand (x : Word) : Instr :=
  if opField x = 0x1 then .accNew (accField x)
  else if opField x = 0x2 then .setMode (modeOfBits (mField x))
  else if opField x = 0x3 then .buildTable
  else if opField x = 0x5 then .updateOne (accField x) (immField x)
  else if opField x = 0x7 then .finalize (accField x)
  else if opField x = 0x8 then .getMode
  else .tableRead (immField x)

/-- What a legal word decodes to with these argument words (R73, R74). -/
def decodeArgs (w : AddrWidth) (x : Word) (args : List ArgWord) : Except DecodeError Instr :=
  if opField x = 0x4 then decodeArgs4 w (accField x) args
  else if opField x = 0x6 then decodeArgs2 w (accField x) args
  else decodeArgs0 (plainCommand x) args

/-- The decoder refuses the words that match no row and reads the others' argument words by their opcode (R74-R76). -/
theorem decode_eq (w : AddrWidth) (c : Command) : decode w c = whenZero (legalWord c.word) (decodeArgs w c.word c.args) := by
  rw [legalWord_eq_zerosHold]
  dsimp only [decode]
  split_ifs
  case neg => simp only [zerosHold, whenZero, or_self, if_false, Bool.false_eq_true, *]
  all_goals simp [zerosHold, decodeArgs, plainCommand, *]

/-! ### Round trip -/

theorem decodeArgs4_eq_ok {w : AddrWidth} {a : SlotIx} {args : List ArgWord} {i : Instr} :
    decodeArgs4 w a args = .ok i ↔ ∃ base len off cnt : ArgWord, args = [base, len, off, cnt] ∧
      (Instr.update a base.toNat len.toNat off.toNat cnt.toNat).wf w = true ∧
      .update a base.toNat len.toNat off.toNat cnt.toNat = i := by
  unfold decodeArgs4
  split
  · simp [accepted_eq_ok]
  · next hne => exact iff_of_false nofun (fun ⟨b, l, o, c, h, _⟩ => hne b l o c h)

theorem decodeArgs2_eq_ok {w : AddrWidth} {a : SlotIx} {args : List ArgWord} {i : Instr} :
    decodeArgs2 w a args = .ok i ↔ ∃ ptr cnt : ArgWord, args = [ptr, cnt] ∧
      (Instr.updateRaw a ptr.toNat cnt.toNat).wf w = true ∧ .updateRaw a ptr.toNat cnt.toNat = i := by
  unfold decodeArgs2
  split
  · simp [accepted_eq_ok]
  · next hne => exact iff_of_false nofun (fun ⟨p, c, h, _⟩ => hne p c h)

theorem argFits_iff {w : AddrWidth} {n : Nat} : argFits w n = true ↔ n < 2 ^ w.bits := decide_eq_true_iff

/-- An argument that fits `ADDR_W` fits an argument word (R73). -/
theorem toNat_argWord {w : AddrWidth} {n : Nat} (h : argFits w n = true) : (argWord n).toNat = n := by
  have hw : 2 ^ w.bits ≤ 2 ^ 64 := by cases w <;> decide
  exact (BitVec.toNat_ofNat ..).trans (Nat.mod_eq_of_lt ((argFits_iff.mp h).trans_le hw))

@[simp] theorem argWord_toNat (x : ArgWord) : argWord x.toNat = x := by simp [argWord]

/-- A command whose word has no reserved bits is put together from what its fields are. -/
theorem command_eq_of_fields {x : Word} {op : BitVec 4} {m : BitVec 2} {imm : Byte} {a : SlotIx} {args : List ArgWord}
    (hop : opField x = op) (hm : mField x = m) (hz : zField x = 0) (hi : immField x = imm) (ha : accField x = a) :
    ({ word := cmdWord op m imm a, args := args } : Command) = { word := x, args := args } := by
  subst hop hm hi ha
  rw [cmdWord_fields x hz]

/-- The family EncodeRow, for every command. -/
theorem encodeRow_statement (i : Instr) : Laws.EncodeRow.Statement i := by
  cases i with
  | accNew a => exact Laws.EncodeRow.accNew a
  | setMode m => exact Laws.EncodeRow.setMode m
  | buildTable => exact Laws.EncodeRow.buildTable
  | update a base len off cnt => exact Laws.EncodeRow.update a base len off cnt
  | updateOne a b => exact Laws.EncodeRow.updateOne a b
  | updateRaw a ptr cnt => exact Laws.EncodeRow.updateRaw a ptr cnt
  | finalize a => exact Laws.EncodeRow.finalize a
  | getMode => exact Laws.EncodeRow.getMode
  | tableRead i => exact Laws.EncodeRow.tableRead i

theorem legalWord_encode (i : Instr) : legalWord (encode i).word = true := by
  obtain ⟨⟨r, hr, _, hx⟩, _⟩ := encodeRow_statement i
  exact List.any_eq_true.mpr ⟨r, hr, hx⟩

theorem decodeArgs_encode {w : AddrWidth} {i : Instr} (h : i.wf w = true) :
    decodeArgs w (encode i).word (encode i).args = .ok i := by
  cases i with
  | accNew | setMode | buildTable | updateOne | finalize | getMode | tableRead =>
    simp [encode, decodeArgs, plainCommand, decodeArgs0, opField_cmdWord, mField_cmdWord, immField_cmdWord, accField_cmdWord]
  | update a base len off cnt =>
    obtain ⟨⟨⟨hb, hl⟩, ho⟩, hc⟩ : ((argFits w base ∧ argFits w len) ∧ argFits w off) ∧ argFits w cnt := by
      simpa only [Instr.wf, Bool.and_eq_true] using h
    simp [encode, decodeArgs, decodeArgs4_eq_ok, opField_cmdWord, accField_cmdWord, toNat_argWord hb, toNat_argWord hl,
      toNat_argWord ho, toNat_argWord hc, h]
  | updateRaw a ptr cnt =>
    obtain ⟨hp, hc⟩ : argFits w ptr ∧ argFits w cnt := by simpa only [Instr.wf, Bool.and_eq_true] using h
    simp [encode, decodeArgs, decodeArgs2_eq_ok, opField_cmdWord, accField_cmdWord, toNat_argWord hp, toNat_argWord hc, h]

/-- Settles O3: an encoding lies in its command's row, so it is legal, and its argument words are read back one by one. -/
theorem decodeOfEncode : Obligations.DecodeOfEncode := by
  intro w i h
  rw [decode_eq, whenZero_eq_ok]
  exact ⟨legalWord_encode i, decodeArgs_encode h⟩

theorem wf_plainCommand (w : AddrWidth) (x : Word) : (plainCommand x).wf w = true := by
  unfold plainCommand
  split_ifs <;> rfl

/-- The encoding of a command without argument words is the legal word it was read from. -/
theorem encode_plainCommand {x : Word} (hx : legalWord x = true) (h4 : opField x ≠ 0x4) (h6 : opField x ≠ 0x6) :
    encode (plainCommand x) = { word := x, args := [] } := by
  obtain ⟨hop, hz, hm, hi, ha⟩ := fields_of_legalWord hx
  unfold plainCommand
  split_ifs with h1 h2 h3 h5 h7 h8
  · rw [h1] at hm hi
    exact command_eq_of_fields h1 (hm (by decide)) hz (hi (by decide)) rfl
  · rw [h2] at hi ha
    exact command_eq_of_fields h2 (modeBits_modeOfBits _).symm hz (hi (by decide)) (ha (by decide))
  · rw [h3] at hm hi ha
    exact command_eq_of_fields h3 (hm (by decide)) hz (hi (by decide)) (ha (by decide))
  · rw [h5] at hm
    exact command_eq_of_fields h5 (hm (by decide)) hz rfl rfl
  · rw [h7] at hm hi
    exact command_eq_of_fields h7 (hm (by decide)) hz (hi (by decide)) rfl
  · rw [h8] at hm hi ha
    exact command_eq_of_fields h8 (hm (by decide)) hz (hi (by decide)) (ha (by decide))
  · have h9 : opField x = 0x9 := by bv_omega
    rw [h9] at hm ha
    exact command_eq_of_fields h9 (hm (by decide)) hz rfl (ha (by decide))

theorem encode_of_decodeArgs {w : AddrWidth} {x : Word} {args : List ArgWord} {i : Instr} (hx : legalWord x = true)
    (h : decodeArgs w x args = .ok i) : encode i = { word := x, args := args } ∧ i.wf w = true := by
  obtain ⟨_, hz, hm, hi, _⟩ := fields_of_legalWord hx
  unfold decodeArgs at h
  split_ifs at h with h4 h6
  · obtain ⟨base, len, off, cnt, rfl, hwf, rfl⟩ := decodeArgs4_eq_ok.mp h
    rw [h4] at hm hi
    simp only [encode, argWord_toNat]
    exact ⟨command_eq_of_fields h4 (hm (by decide)) hz (hi (by decide)) rfl, hwf⟩
  · obtain ⟨ptr, cnt, rfl, hwf, rfl⟩ := decodeArgs2_eq_ok.mp h
    rw [h6] at hm hi
    simp only [encode, argWord_toNat]
    exact ⟨command_eq_of_fields h6 (hm (by decide)) hz (hi (by decide)) rfl, hwf⟩
  · obtain ⟨rfl, rfl⟩ := decodeArgs0_eq_ok.mp h
    exact ⟨encode_plainCommand hx h4 h6, wf_plainCommand w x⟩

/-- Settles O4: what decodes is legal, and the fields and argument words it was read from are those its encoding writes. -/
theorem encodeOfDecode : Obligations.EncodeOfDecode := by
  intro w c i h
  rw [decode_eq, whenZero_eq_ok] at h
  exact encode_of_decodeArgs h.1 h.2

/-! ### Match and mask -/

theorem row_eq_of_mnemonic : ∀ r ∈ opcodeRows, ∀ q ∈ opcodeRows, r.mnemonic = q.mnemonic → r = q := by decide

theorem row_eq_of_op : ∀ r ∈ opcodeRows, ∀ q ∈ opcodeRows, opField r.pattern = opField q.pattern → r = q := by decide

/-- Two rows that match one word have its OP (R75). -/
theorem row_eq_of_rowMatches {r q : OpcodeRow} {x : Word} (hr : r ∈ opcodeRows) (hq : q ∈ opcodeRows)
    (h : rowMatches r x = true) (h' : rowMatches q x = true) : r = q := by
  obtain ⟨hop, _⟩ := (rowMatches_iff hr).mp h
  obtain ⟨hop', _⟩ := (rowMatches_iff hq).mp h'
  exact row_eq_of_op r hr q hq (hop.symm.trans hop')

/-- Settles O5: a decoded word is an encoding, which matches its mnemonic's row, and the rows differ in OP and in mnemonic. -/
theorem matchAndMaskRows : Obligations.MatchAndMaskRows := by
  refine ⟨?_, fun x r q hr hq h h' => row_eq_of_rowMatches hr hq h h'⟩
  intro w c i r hd hr
  obtain ⟨rfl, _⟩ := encodeOfDecode w c i hd
  obtain ⟨⟨q, hq, hname, hx⟩, _⟩ := encodeRow_statement i
  constructor
  · intro h
    rw [row_eq_of_rowMatches hr hq h hx, hname]
  · intro h
    rwa [row_eq_of_mnemonic r hr q hq (h.trans hname.symm)]

/-! ### Argument words -/

theorem exists_decodeArgs4_eq_ok {w : AddrWidth} {a : SlotIx} {args : List ArgWord} :
    (∃ i, decodeArgs4 w a args = .ok i) ↔ args.length = 4 ∧ ∀ x ∈ args, x.toNat < 2 ^ w.bits := by
  rw [List.length_eq_four]
  constructor
  · rintro ⟨i, h⟩
    obtain ⟨base, len, off, cnt, rfl, hwf, rfl⟩ := decodeArgs4_eq_ok.mp h
    refine ⟨⟨base, len, off, cnt, rfl⟩, ?_⟩
    simpa [Instr.wf, argFits_iff, and_assoc] using hwf
  · rintro ⟨⟨base, len, off, cnt, rfl⟩, h⟩
    refine ⟨_, decodeArgs4_eq_ok.mpr ⟨base, len, off, cnt, rfl, ?_, rfl⟩⟩
    simpa [Instr.wf, argFits_iff, and_assoc] using h

theorem exists_decodeArgs2_eq_ok {w : AddrWidth} {a : SlotIx} {args : List ArgWord} :
    (∃ i, decodeArgs2 w a args = .ok i) ↔ args.length = 2 ∧ ∀ x ∈ args, x.toNat < 2 ^ w.bits := by
  rw [List.length_eq_two]
  constructor
  · rintro ⟨i, h⟩
    obtain ⟨ptr, cnt, rfl, hwf, rfl⟩ := decodeArgs2_eq_ok.mp h
    refine ⟨⟨ptr, cnt, rfl⟩, ?_⟩
    simpa [Instr.wf, argFits_iff] using hwf
  · rintro ⟨⟨ptr, cnt, rfl⟩, h⟩
    refine ⟨_, decodeArgs2_eq_ok.mpr ⟨ptr, cnt, rfl, ?_, rfl⟩⟩
    simpa [Instr.wf, argFits_iff] using h

/-- Without argument words there is nothing that could be too wide. -/
theorem exists_decodeArgs0_eq_ok {w : AddrWidth} {i : Instr} {args : List ArgWord} :
    (∃ j, decodeArgs0 i args = .ok j) ↔ args.length = 0 ∧ ∀ x ∈ args, x.toNat < 2 ^ w.bits := by
  simp +contextual [decodeArgs0_eq_ok]

theorem exists_decodeArgs_eq_ok {w : AddrWidth} {x : Word} {args : List ArgWord} :
    (∃ i, decodeArgs w x args = .ok i) ↔ args.length = nargs (opField x) ∧ ∀ a ∈ args, a.toNat < 2 ^ w.bits := by
  unfold decodeArgs nargs
  split_ifs
  · exact exists_decodeArgs4_eq_ok
  · exact exists_decodeArgs2_eq_ok
  · exact exists_decodeArgs0_eq_ok

theorem decode_of_legalWord {w : AddrWidth} {c : Command} (hx : legalWord c.word = true) :
    decode w c = decodeArgs w c.word c.args := by
  rw [decode_eq, hx, whenZero, if_pos rfl]

/-- Settles O7, by the opcode: four, two or no argument words. -/
theorem argumentWordsOfAnOpcode : Obligations.ArgumentWordsOfAnOpcode := by
  intro w c hx
  rw [decode_of_legalWord hx]
  exact exists_decodeArgs_eq_ok

/-! ### Illegal words -/

theorem accepted_ne_illegalCommand {w : AddrWidth} {i : Instr} : accepted w i ≠ .error .illegalCommand := by
  unfold accepted
  split <;> simp

theorem countError_ne_illegalCommand {n : Nat} {args : List ArgWord} : countError n args ≠ .illegalCommand := by
  unfold countError
  split <;> simp

theorem decodeArgs4_ne_illegalCommand {w : AddrWidth} {a : SlotIx} {args : List ArgWord} :
    decodeArgs4 w a args ≠ .error .illegalCommand := by
  unfold decodeArgs4
  split
  · exact accepted_ne_illegalCommand
  · simp [countError_ne_illegalCommand]

theorem decodeArgs2_ne_illegalCommand {w : AddrWidth} {a : SlotIx} {args : List ArgWord} :
    decodeArgs2 w a args ≠ .error .illegalCommand := by
  unfold decodeArgs2
  split
  · exact accepted_ne_illegalCommand
  · simp [countError_ne_illegalCommand]

theorem decodeArgs0_ne_illegalCommand {i : Instr} {args : List ArgWord} : decodeArgs0 i args ≠ .error .illegalCommand := by
  cases args <;> simp [decodeArgs0]

/-- Argument words never make a word illegal (R76). -/
theorem decodeArgs_ne_illegalCommand {w : AddrWidth} {x : Word} {args : List ArgWord} :
    decodeArgs w x args ≠ .error .illegalCommand := by
  unfold decodeArgs
  split_ifs
  · exact decodeArgs4_ne_illegalCommand
  · exact decodeArgs2_ne_illegalCommand
  · exact decodeArgs0_ne_illegalCommand

theorem decode_eq_illegalCommand {w : AddrWidth} {c : Command} :
    decode w c = .error .illegalCommand ↔ legalWord c.word = false := by
  rw [decode_eq]
  cases legalWord c.word <;> simp [whenZero, decodeArgs_ne_illegalCommand]

theorem legalWord_eq_false_iff_rows {x : Word} : legalWord x = false ↔ ∀ r ∈ opcodeRows, rowMatches r x = false := by
  simp [legalWord]

/-- With as many zero argument words as its opcode takes, a legal word decodes. -/
theorem exists_decode_eq_ok {w : AddrWidth} {x : Word} (hx : legalWord x = true) :
    ∃ (args : List ArgWord) (i : Instr), decode w { word := x, args := args } = .ok i := by
  refine ⟨List.replicate (nargs (opField x)) 0, ?_⟩
  rw [decode_of_legalWord hx]
  refine exists_decodeArgs_eq_ok.mpr ⟨List.length_replicate, ?_⟩
  intro a ha
  rw [List.eq_of_mem_replicate ha]
  exact Nat.two_pow_pos _

end Sys2Proof

namespace Sys2Proof.Machine

/-! ### Executing an illegal word -/

theorem step_of_illegalCommand {s : State} {c : Command} {rest : List PortEvent} (hf : s.fault = none)
    (hp : s.port = .command c :: rest) (hd : decode s.cfg.addrW c = .error .illegalCommand) :
    step s = .next { s with port := rest, fault := some .illegalCommand, response := some (.fault .illegalCommand) } := by
  have hfetch : fetch s = .illegal { s with port := rest } := by simp [fetch, hp, hd]
  rw [step, hfetch]
  exact unlessFaulted_running _ hf

/-- Settles O6: illegality is said once by `legalWord`, which is read row by row and field by field. -/
theorem illegalCommandWords : Obligations.IllegalCommandWords := by
  refine ⟨?_, ?_, ?_, ?_⟩
  · intro w c
    exact decode_eq_illegalCommand.trans legalWord_eq_false_iff_rows
  · intro w c
    exact decode_eq_illegalCommand.trans legalWord_eq_false_iff_fields
  · intro w c h
    rw [ne_eq, decode_eq_illegalCommand, Bool.not_eq_false] at h
    exact exists_decode_eq_ok h
  · intro s c rest hf hp hd
    exact step_of_illegalCommand hf hp hd

/-! ### RESULT -/

theorem Effect.result {i : Instr} {s u : State} {r : Option Word} (h : Effect i s r u) : r ≠ none ↔ hasResult i = true := by
  cases i with
  | accNew | setMode | buildTable | update | updateOne | updateRaw =>
    have hr : r = none := by simp_all [Effect]
    simp [hr, hasResult]
  | finalize | getMode | tableRead =>
    have hr : r ≠ none := by simp_all [Effect]
    simp [hr, hasResult]

/-- Settles O24: of the four things a command can do only its effect answers OK, with the effect's RESULT. -/
theorem resultOnlyWhereTheRuleSays : Obligations.ResultOnlyWhereTheRuleSays := by
  refine ⟨?_, ?_⟩
  · intro r h
    cases r with
    | ok q => rfl
    | outOfRange => exact absurd rfl h
    | fault c => exact absurd rfl h
  · intro i s t r h hr hs
    obtain ⟨c, _, rfl⟩ | ⟨_, c, _, rfl⟩ | ⟨_, _, rfl⟩ | ⟨_, q, u, he, rfl⟩ := exec_next h <;> cases hr
    · simp [statusCode] at hs
    · simp [statusCode] at hs
    · simp [statusCode] at hs
    · exact he.result

/-! ### Worked words and lines -/

/-- Settles O1: the decoder reads back an encoding (R71-R74), and the two words beside them match no row. -/
theorem wordsOfTheSpecDecode : Obligations.WordsOfTheSpecDecode :=
  ⟨decodeOfEncode .w64 (.accNew 3) rfl, decodeOfEncode .w64 (.setMode .hardwareNarrow) rfl,
    decodeOfEncode .w64 .buildTable rfl, decodeOfEncode .w64 (.update 1 0x2000 9 4 5) rfl,
    decodeOfEncode .w64 (.updateOne 0 0x61) rfl, decodeOfEncode .w64 (.updateRaw 1 0x2001 8) rfl,
    decodeOfEncode .w64 (.finalize 2) rfl, decodeOfEncode .w64 .getMode rfl, decodeOfEncode .w64 (.tableRead 0x80) rfl,
    decode_eq_illegalCommand.mpr (by decide), decode_eq_illegalCommand.mpr (by decide)⟩

/-- Settles O2, by running the assembler on each text. -/
theorem assemblerLinesEncode : Obligations.AssemblerLinesEncode := by
  refine ⟨?_, ?_, ?_, ?_⟩ <;> decide

end Sys2Proof.Machine
end

section
/-! PROOFS. 40_reduction.md: the reduction datapath. A bit step is linear over XOR and shifts out a zero bit, so eight bit steps are
one byte step with the byte in the low bits, and a word's bit-serial fold is its bytes' fold; the three paths are then the reference
fold by words and by bytes. -/

namespace Sys2Proof.Machine

/-! ### The bit step and the table function (R100-R102) -/

theorem getLsbD_zero_iff {r : Word} : r.getLsbD 0 = true ↔ r &&& 1 = 1 := by
  have hand : r &&& 1 = (BitVec.ofBool (r.getLsbD 0)).setWidth 32 := BitVec.and_one_eq_setWidth_ofBool_getLsbD
  rw [hand]
  cases r.getLsbD 0 <;> decide

/-- The bit step without a branch on the shifted value: the dropped bit says whether the polynomial is added. -/
theorem bitStep_eq_xor (r : Word) : bitStep r = (r >>> 1) ^^^ (if r.getLsbD 0 then poly else 0) := by
  rw [bitStep]
  split
  · rfl
  · exact BitVec.xor_zero.symm

theorem bitStep_xor (x y : Word) : bitStep (x ^^^ y) = bitStep x ^^^ bitStep y := by
  have hpoly : (if (x ^^^ y).getLsbD 0 then poly else 0) =
      (if x.getLsbD 0 then poly else 0) ^^^ (if y.getLsbD 0 then poly else 0) := by
    rw [BitVec.getLsbD_xor]
    cases x.getLsbD 0 <;> cases y.getLsbD 0 <;> decide
  rw [bitStep_eq_xor, bitStep_eq_xor x, bitStep_eq_xor y, BitVec.ushiftRight_xor_distrib, hpoly]
  ac_rfl

theorem bitSteps_xor (n : Nat) (x y : Word) : bitSteps n (x ^^^ y) = bitSteps n x ^^^ bitSteps n y := by
  induction n generalizing x y with
  | zero => rfl
  | succ n ih => rw [bitSteps, bitStep_xor, ih, bitSteps, bitSteps]

theorem bitSteps_add (m n : Nat) (r : Word) : bitSteps (m + n) r = bitSteps n (bitSteps m r) := by
  induction m generalizing r with
  | zero => rw [Nat.zero_add, bitSteps]
  | succ m ih => rw [Nat.succ_add, bitSteps, ih, bitSteps]

theorem bitSteps_zero (n : Nat) : bitSteps n 0#32 = 0#32 := by
  induction n with
  | zero => rfl
  | succ n ih => exact ih

/-- Steps that see no 1 in bit 0 only shift (R113). -/
theorem bitSteps_of_low_bits_zero {n : Nat} {v : Word} (h : ∀ i < n, v.getLsbD i = false) : bitSteps n v = v >>> n := by
  induction n generalizing v with
  | zero => rfl
  | succ n ih =>
    have hstep : bitStep v = v >>> 1 := by rw [bitStep, h 0 n.succ_pos, if_neg Bool.false_ne_true]
    have hrest : ∀ i < n, (v >>> 1).getLsbD i = false := by
      intro i hi
      rw [BitVec.getLsbD_ushiftRight]
      exact h (1 + i) (by omega)
    rw [bitSteps, hstep, ih hrest, ← BitVec.shiftRight_add, Nat.add_comm]

theorem bitSteps_of_lowByte_zero {v : Word} (h : v.extractLsb' 0 8 = 0) : bitSteps 8 v = v >>> 8 := by
  apply bitSteps_of_low_bits_zero
  intro i hi
  have hbit := congrArg (·.getLsbD i) h
  simpa [hi] using hbit

theorem tableFn_xor (i j : Byte) : tableFn (i ^^^ j) = tableFn i ^^^ tableFn j := by
  rw [tableFn, BitVec.setWidth_xor, bitSteps_xor, tableFn, tableFn]

theorem tableFn_zero : tableFn 0#8 = 0#32 := by decide

/-! ### The byte step (R103, R104, R113) -/

theorem and_lowByte (r : Word) : r &&& 0xFF = (r.setWidth 8).setWidth 32 := by
  apply BitVec.eq_of_toNat_eq
  rw [BitVec.toNat_and, BitVec.toNat_setWidth_of_le (by decide), BitVec.toNat_setWidth]
  exact Nat.and_two_pow_sub_one_eq_mod r.toNat 8

theorem setWidth_and_lowByte (r : Word) : (r &&& 0xFF).setWidth 8 = r.setWidth 8 := by
  rw [and_lowByte, BitVec.setWidth_setWidth_of_le _ (by decide), BitVec.setWidth_eq]

theorem highBytes_xor_lowByte (r : Word) : (r &&& 0xFFFFFF00) ^^^ (r &&& 0xFF) = r := by
  have hmask : (0xFFFFFF00 : Word) ^^^ 0xFF = BitVec.allOnes 32 := by decide
  ext i hi
  rw [BitVec.getElem_xor, BitVec.getElem_and, BitVec.getElem_and, ← Bool.and_xor_distrib_left, ← BitVec.getElem_xor, hmask,
    BitVec.getElem_allOnes, Bool.and_true]

theorem byte_ushiftRight_eight (b : Byte) : (b.setWidth 32 : Word) >>> 8 = 0#32 := by
  apply BitVec.eq_of_toNat_eq
  rw [BitVec.toNat_ushiftRight, BitVec.toNat_setWidth_of_le (by decide), Nat.shiftRight_eq_div_pow]
  exact Nat.div_eq_of_lt b.isLt

theorem bitSteps_highBytes (r : Word) : bitSteps 8 (r &&& 0xFFFFFF00) = r >>> 8 := by
  have hlow : (r &&& 0xFFFFFF00).extractLsb' 0 8 = 0 := by
    have hmask : (0xFFFFFF00 : Word).extractLsb' 0 8 = 0#8 := by decide
    rw [BitVec.extractLsb'_and, hmask]
    exact BitVec.and_zero
  rw [bitSteps_of_lowByte_zero hlow]
  conv_rhs => rw [← highBytes_xor_lowByte r, BitVec.ushiftRight_xor_distrib, and_lowByte, byte_ushiftRight_eight, BitVec.xor_zero]

/-- Eight bit steps bring down three bytes and reduce the lowest one. -/
theorem bitSteps_eight (r : Word) : bitSteps 8 r = (r >>> 8) ^^^ tableFn (r.setWidth 8) := by
  conv_lhs => rw [← highBytes_xor_lowByte r, bitSteps_xor, bitSteps_highBytes, and_lowByte]
  rfl

/-- Eight bit steps fold the lowest byte of `w` and bring the next one down (R113). -/
theorem bitSteps_eight_xor (r w : Word) : bitSteps 8 (r ^^^ w) = swByte r (w.setWidth 8) ^^^ (w >>> 8) := by
  rw [bitSteps_eight, swByte, BitVec.ushiftRight_xor_distrib, BitVec.setWidth_xor]
  ac_rfl

theorem hwByte_eq_swByte (r : Word) (b : Byte) : hwByte r b = swByte r b := by
  rw [hwByte, bitSteps_eight_xor, byte_ushiftRight_eight, BitVec.setWidth_setWidth_of_le _ (by decide), BitVec.setWidth_eq,
    BitVec.xor_zero]

theorem swByte_lowByte (r : Word) : swByte r (r.setWidth 8) = r >>> 8 := by
  rw [swByte, BitVec.xor_self, tableFn_zero, BitVec.xor_zero]

theorem tableByte_eq_swByte {table : RegFile Word} (h : ∀ i : Byte, table.get i = tableFn i) (r : Word) (b : Byte) :
    tableByte table r b = swByte r b := by
  rw [tableByte, h, swByte]

theorem byteStep_eq_swByte {table : RegFile Word} (h : ∀ i : Byte, table.get i = tableFn i) (m : Strategy) (r : Word) (b : Byte) :
    byteStep table m r b = swByte r b := by
  cases m with
  | softwareTable => exact tableByte_eq_swByte h r b
  | hardwareNarrow => exact hwByte_eq_swByte r b
  | hardwareWide => exact hwByte_eq_swByte r b

/-! ### The reference fold and the word folds (R105-R107) -/

theorem fold_append (r : Word) (b1 b2 : List Byte) : fold r (b1 ++ b2) = fold (fold r b1) b2 := List.foldl_append

/-- Bit steps by whole bytes fold the bytes of `w` from the lowest one, and leave what is above them (R113). -/
theorem bitSteps_bytes_xor (k : Nat) (r w : Word) :
    bitSteps (8 * k) (r ^^^ w) = fold r ((List.range k).map (fun j => w.extractLsb' (8 * j) 8)) ^^^ (w >>> (8 * k)) := by
  induction k with
  | zero => rfl
  | succ k ih =>
    rw [Nat.mul_succ, bitSteps_add, ih, bitSteps_eight_xor, BitVec.setWidth_ushiftRight_eq_extractLsb, ← BitVec.shiftRight_add,
      List.range_succ, List.map_append, fold_append]
    rfl

theorem hwW32_eq_fold (r w : Word) :
    hwW32 r w = fold r [w.extractLsb' 0 8, w.extractLsb' 8 8, w.extractLsb' 16 8, w.extractLsb' 24 8] := by
  have hout : w >>> (8 * 4) = 0#32 := BitVec.ushiftRight_eq_zero (by decide)
  exact (bitSteps_bytes_xor 4 r w).trans (by rw [hout, BitVec.xor_zero]; rfl)

theorem hwW32_self (r : Word) : hwW32 r r = 0 := by
  rw [hwW32, BitVec.xor_self, bitSteps_zero]
  rfl

theorem extractLsb'_extractLsb'_add {n i len j len' : Nat} (x : BitVec n) (h : j + len' ≤ len) :
    (x.extractLsb' i len).extractLsb' j len' = x.extractLsb' (i + j) len' := by
  ext k hk
  simp [Nat.add_assoc]
  omega

theorem hwW64_eq_fold (r : Word) (w : BitVec 64) :
    hwW64 r w = fold r [w.extractLsb' 0 8, w.extractLsb' 8 8, w.extractLsb' 16 8, w.extractLsb' 24 8,
      w.extractLsb' 32 8, w.extractLsb' 40 8, w.extractLsb' 48 8, w.extractLsb' 56 8] := by
  rw [hwW64, hwW32_eq_fold, hwW32_eq_fold, ← fold_append]
  simp (disch := decide) only [extractLsb'_extractLsb'_add]
  rfl

/-! ### The paths (R108-R112) -/

-- `-Nat.reduceAdd` keeps the width of each `++` a sum, so that the lemmas about `++` still match.
theorem le32_bytes (b0 b1 b2 b3 : Byte) :
    (le32 b0 b1 b2 b3).extractLsb' 0 8 = b0 ∧ (le32 b0 b1 b2 b3).extractLsb' 8 8 = b1 ∧
      (le32 b0 b1 b2 b3).extractLsb' 16 8 = b2 ∧ (le32 b0 b1 b2 b3).extractLsb' 24 8 = b3 := by
  simp [le32, BitVec.extractLsb'_append_eq_of_le, BitVec.extractLsb'_append_eq_of_add_le, -Nat.reduceAdd]

theorem le64_bytes (b0 b1 b2 b3 b4 b5 b6 b7 : Byte) :
    let w := le64 b0 b1 b2 b3 b4 b5 b6 b7
    w.extractLsb' 0 8 = b0 ∧ w.extractLsb' 8 8 = b1 ∧ w.extractLsb' 16 8 = b2 ∧ w.extractLsb' 24 8 = b3 ∧
      w.extractLsb' 32 8 = b4 ∧ w.extractLsb' 40 8 = b5 ∧ w.extractLsb' 48 8 = b6 ∧ w.extractLsb' 56 8 = b7 := by
  simp [le64, BitVec.extractLsb'_append_eq_of_le, BitVec.extractLsb'_append_eq_of_add_le, -Nat.reduceAdd]

theorem hwW32_le32 (r : Word) (b0 b1 b2 b3 : Byte) : hwW32 r (le32 b0 b1 b2 b3) = fold r [b0, b1, b2, b3] := by
  obtain ⟨h0, h1, h2, h3⟩ := le32_bytes b0 b1 b2 b3
  rw [hwW32_eq_fold, h0, h1, h2, h3]

theorem hwW64_le64 (r : Word) (b0 b1 b2 b3 b4 b5 b6 b7 : Byte) :
    hwW64 r (le64 b0 b1 b2 b3 b4 b5 b6 b7) = fold r [b0, b1, b2, b3, b4, b5, b6, b7] := by
  obtain ⟨h0, h1, h2, h3, h4, h5, h6, h7⟩ := le64_bytes b0 b1 b2 b3 b4 b5 b6 b7
  rw [hwW64_eq_fold, h0, h1, h2, h3, h4, h5, h6, h7]

theorem pathN_of_length_lt (r : Word) {bytes : List Byte} (h : bytes.length < 4) : pathN r bytes = bytes.foldl hwByte r := by
  rw [pathN, Nat.div_eq_of_lt h]
  simp [foldWords32]

theorem pathN_cons (r : Word) (b0 b1 b2 b3 : Byte) (rest : List Byte) :
    pathN r (b0 :: b1 :: b2 :: b3 :: rest) = pathN (hwW32 r (le32 b0 b1 b2 b3)) rest := by
  have hk : (b0 :: b1 :: b2 :: b3 :: rest).length / 4 = rest.length / 4 + 1 := Nat.add_div_right _ (show 0 < 4 by decide)
  rw [pathN, hk, foldWords32, pathN]
  rfl

theorem pathW_of_length_lt (r : Word) {bytes : List Byte} (h : bytes.length < 8) : pathW r bytes = bytes.foldl hwByte r := by
  rw [pathW, Nat.div_eq_of_lt h]
  simp [foldWords64]

theorem pathW_cons (r : Word) (b0 b1 b2 b3 b4 b5 b6 b7 : Byte) (rest : List Byte) :
    pathW r (b0 :: b1 :: b2 :: b3 :: b4 :: b5 :: b6 :: b7 :: rest) = pathW (hwW64 r (le64 b0 b1 b2 b3 b4 b5 b6 b7)) rest := by
  have hk : (b0 :: b1 :: b2 :: b3 :: b4 :: b5 :: b6 :: b7 :: rest).length / 8 = rest.length / 8 + 1 :=
    Nat.add_div_right _ (show 0 < 8 by decide)
  rw [pathW, hk, foldWords64, pathW]
  rfl

theorem foldl_hwByte (r : Word) (bytes : List Byte) : bytes.foldl hwByte r = fold r bytes := by
  rw [funext₂ hwByte_eq_swByte, fold]

/-- A path that folds `n` bytes at a time, and fewer than `n` left over at the end, is the reference fold. -/
theorem eq_fold_of_chunks {F : Word → List Byte → Word} {n : Nat} (hn : 0 < n)
    (hshort : ∀ (r : Word) (bytes : List Byte), bytes.length < n → F r bytes = fold r bytes)
    (hchunk : ∀ (r : Word) (chunk rest : List Byte), chunk.length = n → F r (chunk ++ rest) = F (fold r chunk) rest)
    (r : Word) (bytes : List Byte) : F r bytes = fold r bytes := by
  by_cases h : bytes.length < n
  · exact hshort r bytes h
  · have hchunkLen : (bytes.take n).length = n := List.length_take_of_le (by omega)
    have hrest := eq_fold_of_chunks hn hshort hchunk (fold r (bytes.take n)) (bytes.drop n)
    rw [← List.take_append_drop n bytes, hchunk r _ _ hchunkLen, hrest, fold_append]
termination_by bytes.length
decreasing_by simp only [List.length_drop]; omega

theorem pathN_eq_fold (r : Word) (bytes : List Byte) : pathN r bytes = fold r bytes := by
  refine eq_fold_of_chunks (n := 4) (by decide) ?_ ?_ r bytes
  · intro r bytes h
    rw [pathN_of_length_lt r h, foldl_hwByte]
  · intro r chunk rest h
    obtain ⟨b0, b1, b2, b3, rfl⟩ := List.length_eq_four.mp h
    rw [← hwW32_le32]
    exact pathN_cons r b0 b1 b2 b3 rest

theorem pathW_eq_fold (r : Word) (bytes : List Byte) : pathW r bytes = fold r bytes := by
  refine eq_fold_of_chunks (n := 8) (by decide) ?_ ?_ r bytes
  · intro r bytes h
    rw [pathW_of_length_lt r h, foldl_hwByte]
  · intro r chunk rest h
    match chunk, h with
    | [b0, b1, b2, b3, b4, b5, b6, b7], _ =>
      rw [← hwW64_le64]
      exact pathW_cons r b0 b1 b2 b3 b4 b5 b6 b7 rest

theorem path_eq_fold {table : RegFile Word} (h : ∀ i : Byte, table.get i = tableFn i) (m : Strategy) (r : Word)
    (bytes : List Byte) : path table m r bytes = fold r bytes := by
  cases m with
  | softwareTable => rw [path, pathSW, funext₂ (tableByte_eq_swByte h), fold]
  | hardwareNarrow => exact pathN_eq_fold r bytes
  | hardwareWide => exact pathW_eq_fold r bytes

/-! ### The statements -/

/-- Settles O8: `bitStep` is R100's branch, and T(i) unfolds to eight bit steps. -/
theorem bitStepValues : Obligations.BitStepValues := by
  refine ⟨?_, by decide, by decide, by decide, by decide, ?_, by decide⟩
  · intro r
    simp only [← getLsbD_zero_iff]
    rfl
  · intro i
    rfl

/-- Settles O9: the table function inherits the bit step's linearity. -/
theorem tableFunctionValues : Obligations.TableFunctionValues := by
  refine ⟨tableFn_zero, by decide, by decide, by decide, ?_⟩
  intro i j
  exact tableFn_xor i j

/-- Settles O10: each bit-serial form is the fold of its bytes, by which the worked examples are evaluated too. -/
theorem wordFoldsAreByteSteps : Obligations.WordFoldsAreByteSteps := by
  refine ⟨?_, ?_, by decide, by decide, by decide, ?_, by decide, ?_, hwW32_eq_fold, hwW32_self, ?_, ?_, ?_, ?_, ?_, ?_⟩
  · intro table r b h
    rw [setWidth_and_lowByte]
    exact ⟨tableByte_eq_swByte h r b, tableByte_eq_swByte h r b⟩
  · intro r
    rw [← BitVec.setWidth_eq_extractLsb' (by decide)]
    exact swByte_lowByte r
  · intro r b
    exact ⟨hwByte_eq_swByte r b, rfl⟩
  · intro r w
    rfl
  · rw [hwW32_eq_fold]; decide
  · rw [hwW32_eq_fold]; decide
  · intro r w
    exact ⟨rfl, hwW64_eq_fold r w⟩
  · rw [hwW64_eq_fold]; decide
  · rw [hwW64_eq_fold]; decide
  · rw [hwW64_eq_fold]; decide

/-- Settles O11, by R113's chain: linearity, the shifted-out zero byte, and the next byte brought down. -/
theorem bitSerialForms : Obligations.BitSerialForms := by
  refine ⟨bitStep_xor, ?_, ?_, ?_⟩
  · intro v h
    exact bitSteps_of_lowByte_zero h
  · intro r b
    refine ⟨?_, hwByte_eq_swByte r b⟩
    rw [← bitSteps_xor, ← BitVec.xor_assoc, highBytes_xor_lowByte]
  · intro r w
    exact ⟨rfl, hwW32_eq_fold r w⟩

/-- Settles O12: the reference fold is the list's left fold, and so are its equations. -/
theorem foldSplits : Obligations.FoldSplits := by
  refine ⟨?_, ?_, fold_append⟩
  · intro r
    rfl
  · intro r b bytes
    rfl

/-- Settles O13: the existential word is the little-endian load of the first bytes. -/
theorem wordLoopsOfTheHardwarePaths : Obligations.WordLoopsOfTheHardwarePaths := by
  refine ⟨?_, ?_, ?_, ?_⟩
  · intro r bytes h
    exact pathN_of_length_lt r h
  · intro r b0 b1 b2 b3 rest
    obtain ⟨h0, h1, h2, h3⟩ := le32_bytes b0 b1 b2 b3
    exact ⟨_, h0, h1, h2, h3, pathN_cons r b0 b1 b2 b3 rest⟩
  · intro r bytes h
    exact pathW_of_length_lt r h
  · intro r b0 b1 b2 b3 b4 b5 b6 b7 rest
    obtain ⟨h0, h1, h2, h3, h4, h5, h6, h7⟩ := le64_bytes b0 b1 b2 b3 b4 b5 b6 b7
    exact ⟨_, h0, h1, h2, h3, h4, h5, h6, h7, pathW_cons r b0 b1 b2 b3 b4 b5 b6 b7 rest⟩

/-- Settles O14: every path and every byte step is the reference fold's, which splits over chunks. -/
theorem pathsAgreeWithFold : Obligations.PathsAgreeWithFold := by
  intro table h
  refine ⟨path_eq_fold h, ?_, ?_⟩
  · intro r chunks
    simp only [path_eq_fold h, fold, List.foldl_flatMap]
  · intro r steps
    simp only [byteStep_eq_swByte h, fold, List.foldl_map]

/-- Settles O15: the transform is the bitwise complement, and the checksum is the transform of a fold from INIT. -/
theorem finalizeTransform : Obligations.FinalizeTransform := by
  refine ⟨?_, ?_, by decide, by decide, ?_, by decide⟩
  · intro r
    rfl
  · intro r
    exact BitVec.not_not
  · intro bytes
    rfl

end Sys2Proof.Machine
end

section
/-! PROOFS. 41_capability.md: detection and the mode commands, and the frames of the commands that only read or write MODE or the
table. What every command leaves of the host's side and of FAULT, and how an effect completes, are said once, for all commands. -/

namespace Sys2Proof.Machine

/-! ### What every command leaves of the host's side and of FAULT (20_memory.md R53, 60_exceptions.md R201) -/

theorem exec_hostSame {i : Instr} {s t : State} (h : exec i s = .next t) : HostSame s t := by
  have hcp : t.cfg = s.cfg ∧ t.port = s.port := by
    obtain ⟨c, _, rfl⟩ | ⟨_, c, _, rfl⟩ | ⟨_, _, rfl⟩ | ⟨_, r, u, he, rfl⟩ := exec_next h
    · exact ⟨rfl, rfl⟩
    · exact ⟨rfl, rfl⟩
    · exact ⟨rfl, rfl⟩
    · obtain ⟨hc, _, hp, _⟩ := he.frame
      exact ⟨hc, hp⟩
  obtain ⟨hcfg, hport⟩ := hcp
  have hmem := exec_mem h
  exact ⟨hcfg, hmem, fun x => by rw [hmem], hport⟩

/-- A command leaves FAULT as it was, or raises one of its own faults in a block that had none. -/
theorem exec_fault {i : Instr} {s t : State} (h : exec i s = .next t) :
    t.fault = s.fault ∨
    ∃ c, s.fault = none ∧ Raises i s c ∧ t = { s with fault := some c, response := some (.fault c) } := by
  obtain ⟨c, _, rfl⟩ | ⟨hf, c, hr, e⟩ | ⟨_, _, rfl⟩ | ⟨_, r, u, he, rfl⟩ := exec_next h
  · exact .inl rfl
  · exact .inr ⟨c, hf, hr, e⟩
  · exact .inl rfl
  · obtain ⟨_, _, _, hf, _⟩ := he.frame
    exact .inl hf

theorem Effect.completedOk {i : Instr} {s u : State} {r : Option Word} (h : Effect i s r u) (hf : s.fault = none) :
    CompletedOk r s { u with response := some (.ok r), position := u.position + 1 } := by
  obtain ⟨_, _, _, hfu, hn⟩ := h.frame
  exact ⟨hfu.trans hf, rfl, congrArg (· + 1) hn⟩

/-! ### The commands of a block that is not faulted, past their checks -/

theorem exec_accNew_running {a : SlotIx} {s : State} (hf : s.fault = none) (ha : a.toNat < s.cfg.accCount) :
    exec (.accNew a) s = complete none (setValid a (writeAcc a initReg (detect s))) :=
  withSlot_running _ hf ha

theorem exec_setMode_supported {m : Mode} {s : State} (hf : s.fault = none) (hm : supported m s.cfg.hwLevel = true) :
    exec (.setMode m) s = complete none (writeMode m s) :=
  (unlessFaulted_running _ hf).trans (if_pos hm)

theorem exec_setMode_unsupported {m : Mode} {s : State} (hf : s.fault = none) (hm : supported m s.cfg.hwLevel = false) :
    exec (.setMode m) s = raiseFault .modeUnsupported s :=
  (unlessFaulted_running _ hf).trans (if_neg (ne_true_of_eq_false hm))

theorem exec_getMode_running {s : State} (hf : s.fault = none) :
    exec .getMode s = complete (some ((modeBits s.mode).setWidth 32)) s :=
  unlessFaulted_running _ hf

/-! ### Detection (R120, R123) -/

theorem detectedMode_of_undetected {s : State} (hm : s.mode = .undetected) :
    s.detectedMode = strategyMode (selectStrategy s.cfg.hwLevel) := by
  rw [← strategyMode_strategyOf, strategyOf, hm]

theorem detect_tableBuilt {s : State} (hm : s.mode = .undetected) (hh : s.cfg.hwLevel = .none) : TableBuilt (detect s) := by
  have hd : detect s = buildTable (writeMode .softwareTable s) := by simp [detect, hm, hh]
  exact hd ▸ tableBuilt_buildTable _

theorem detect_tableKept {s : State} (h : ¬(s.mode = .undetected ∧ s.cfg.hwLevel = .none)) : TableKept s (detect s) :=
  (detect_table s).resolve_right fun ⟨_, hd⟩ => h hd

/-- Settles O31: the checks pass, and the effect is detection with the slot's register and valid bit written over it. -/
theorem accNewStartsTheSlot : Obligations.AccNewStartsTheSlot := by
  intro a s hf ha
  have h := exec_accNew_running hf ha
  have he : Effect (.accNew a) s none (setValid a (writeAcc a initReg (detect s))) := ⟨ha, rfl, rfl⟩
  obtain ⟨hothers, _⟩ := slotsAreLeftAlone
  refine ⟨_, h, RegFile.get_set_same _ _ _, RegFile.get_set_same _ _ _, detect_mode s, ?_, ?_, hothers _ a s _ rfl h,
    exec_hostSame h, he.completedOk hf⟩
  · rintro ⟨hm, hh⟩
    exact detect_tableBuilt hm hh
  · intro hn
    obtain ⟨htable, hvalid⟩ := detect_tableKept hn
    exact ⟨hvalid, htable⟩

/-! ### SET_MODE (R123, R124, R126) -/

theorem supported_iff {m : Mode} {h : HwLevel} :
    supported m h = true ↔ (m = .hardwareNarrow → h ≠ .none) ∧ (m = .hardwareWide → h = .word64) := by
  cases m <;> simp [supported]

theorem supported_eq_false_iff {m : Mode} {h : HwLevel} :
    supported m h = false ↔ (m = .hardwareNarrow ∧ h = .none) ∨ (m = .hardwareWide ∧ h ≠ .word64) := by
  cases m <;> simp [supported]

/-- Settles O32: the premises say when HW_LEVEL supports the mode, which is SET_MODE's one check. -/
theorem setModeWritesMode : Obligations.SetModeWritesMode := by
  refine ⟨?_, ?_⟩
  · intro m s hf hnarrow hwide
    exact exec_setMode_supported hf (supported_iff.mpr ⟨hnarrow, hwide⟩)
  · intro m s hf hm
    exact exec_setMode_unsupported hf (supported_eq_false_iff.mpr hm)

/-- Settles O56: every HW_LEVEL supports mode 0, and ACC_NEW then finds MODE = 0. -/
theorem redetectionAfterUndetected : Obligations.RedetectionAfterUndetected := by
  intro a s hf ha
  have hset := exec_setMode_supported (m := .undetected) hf rfl
  obtain ⟨u, hu, _, _, hmode, _⟩ := accNewStartsTheSlot a
    { s with mode := .undetected, response := some (.ok none), position := s.position + 1 } hf ha
  exact ⟨_, u, hset, rfl, hu, hmode.trans (if_pos rfl)⟩

/-! ### GET_MODE (R127) -/

/-- Settles O33: the four encodings of MODE, and MODE as the ACC_NEW before leaves it. -/
theorem getModeReadsMode : Obligations.GetModeReadsMode := by
  refine ⟨?_, ?_⟩
  · intro s hf
    rw [exec_getMode_running hf, complete]
    cases s.mode <;> rfl
  · intro a s hf hm ha
    obtain ⟨t, ht, _, _, hmode, _, _, _, _, hft, _⟩ := accNewStartsTheSlot a s hf ha
    refine ⟨t, _, ht, exec_getMode_running hft, ?_⟩
    rw [hmode, detectedMode_of_undetected hm]
    cases s.cfg.hwLevel <;> rfl

/-! ### Frames (R124, R127, 42_table.md R141, R143, 43_accumulator.md R170) -/

theorem hasResult_of_isUpdate {i : Instr} (h : isUpdate i = true) : hasResult i = false := by
  cases i with
  | update | updateOne | updateRaw => rfl
  | accNew | setMode | buildTable | finalize | getMode | tableRead => cases h

/-- The commands with a RESULT only read. -/
theorem Change.eq_of_hasResult {i : Instr} {s u : State} (h : Change i s u) (hi : hasResult i = true) : u = s := by
  cases h with
  | kept => rfl
  | setMode | buildTable | startSlot => cases hi
  | fold v hu ha => cases hi.symm.trans (hasResult_of_isUpdate hu)

/-- Settles O42: a reading command changes nothing, and the one thing written beside the response is the fault it may raise. -/
theorem readingCommandsFrame : Obligations.ReadingCommandsFrame := by
  intro i s t hi h
  have hhost := exec_hostSame h
  have hfault : t.fault = s.fault ∨ ∃ c : Cause, s.fault = none ∧ t.fault = some c ∧ t.response = some (.fault c) := by
    obtain hk | ⟨c, hf, _, rfl⟩ := exec_fault h
    · exact .inl hk
    · exact .inr ⟨c, hf, rfl, rfl⟩
  obtain ⟨u, f, r, n, hc, rfl⟩ := exec_change h
  obtain rfl := hc.eq_of_hasResult hi
  exact ⟨rfl, rfl, rfl, rfl, rfl, hhost, hfault⟩

/-- A command that initialises nothing leaves the table as it was. -/
theorem exec_tableKept {i : Instr} {s t : State} (h : exec i s = .next t) (hi : initialises i = false) : TableKept s t := by
  obtain ⟨u, f, r, n, hc, rfl⟩ := exec_change h
  cases hc with
  | kept | setMode => exact ⟨rfl, rfl⟩
  | buildTable | startSlot => cases hi
  | fold v hu ha =>
    obtain ⟨hin, _⟩ := initialises_of_isUpdate hu
    cases hi.symm.trans hin

/-- Settles O44: neither command names a slot, SET_MODE initialises nothing and raises only MODE_UNSUPPORTED, and BUILD_TABLE is no
writer of MODE and raises nothing. -/
theorem modeAndTableCommandsFrame : Obligations.ModeAndTableCommandsFrame := by
  obtain ⟨_, hslots, _⟩ := slotsAreLeftAlone
  obtain ⟨hwriters, _⟩ := writersOfModeAndTable
  refine ⟨?_, ?_⟩
  · intro m s t h
    obtain ⟨htable, hvalid⟩ := exec_tableKept h rfl
    obtain ⟨hacc, haccValid⟩ := hslots _ s t rfl h
    refine ⟨htable, hvalid, hacc, haccValid, exec_hostSame h, ?_⟩
    obtain hk | ⟨c, hf, ⟨rfl, _⟩, rfl⟩ := exec_fault h
    · exact .inl hk
    · exact .inr ⟨hf, rfl, rfl⟩
  · intro s t h
    obtain ⟨hacc, haccValid⟩ := hslots _ s t rfl h
    have hmode : t.mode = s.mode := by
      obtain hk | hi | ⟨_, hne, _⟩ := hwriters _ s t h
      · exact hk
      · cases hi
      · exact absurd rfl hne
    have hfault : t.fault = s.fault := by
      obtain hk | ⟨c, _, hr, _⟩ := exec_fault h
      · exact hk
      · exact hr.elim
    exact ⟨hmode, hacc, haccValid, exec_hostSame h, hfault⟩

end Sys2Proof.Machine
end

section
/-! PROOFS. 42_table.md: BUILD_TABLE and TABLE_READ past the check for a fault, and the built table over a run: no step undoes a
build, and every build stores the same entries, so a table that is built and right never changes. -/

namespace Sys2Proof.Machine

/-! ### The table commands of a block that is not faulted (R141, R143) -/

theorem exec_buildTable_running {s : State} (hf : s.fault = none) : exec .buildTable s = complete none (buildTable s) :=
  unlessFaulted_running _ hf

theorem exec_tableRead_built {s : State} (i : Byte) (hf : s.fault = none) (hv : s.tableValid = true) :
    exec (.tableRead i) s = complete (some (s.table.get i)) s :=
  (unlessFaulted_running _ hf).trans (if_pos hv)

theorem exec_tableRead_notBuilt {s : State} (i : Byte) (hf : s.fault = none) (hv : s.tableValid = false) :
    exec (.tableRead i) s = raiseFault .tableNotBuilt s :=
  (unlessFaulted_running _ hf).trans (if_neg (ne_true_of_eq_false hv))

theorem TableBuilt.exec_tableRead {s : State} (h : TableBuilt s) (i : Byte) (hf : s.fault = none) :
    exec (.tableRead i) s = complete (some (tableFn i)) s := by
  obtain ⟨hv, ht⟩ := h
  rw [exec_tableRead_built i hf hv, ht i]

/-- Two tables that are built and right are one table. -/
theorem TableBuilt.table_eq {s t : State} (hs : TableBuilt s) (ht : TableBuilt t) : t.table = s.table :=
  (table_eq_builtTable ht.right).trans (table_eq_builtTable hs.right).symm

/-- Settles O34: the one effect is the build, whose frame O44 says, and a right built table is the table a build stores. -/
theorem buildTableBuilds : Obligations.BuildTableBuilds := by
  intro s hf
  have h := exec_buildTable_running hf
  have he : Effect .buildTable s none (buildTable s) := ⟨rfl, rfl⟩
  obtain ⟨_, hframe⟩ := modeAndTableCommandsFrame
  obtain ⟨hmode, hacc, haccValid, hhost, _⟩ := hframe s _ h
  refine ⟨_, h, rfl, builtTable_get, hmode, hacc, haccValid, hhost, he.completedOk hf, ?_⟩
  intro hok hv
  exact TableBuilt.table_eq ⟨hv, hok hv⟩ (tableBuilt_buildTable s)

/-- Settles O35: TABLE_VALID is the one check, and a right built table holds `T(i)` at the entry read. -/
theorem tableReadReadsTheEntry : Obligations.TableReadReadsTheEntry := by
  refine ⟨?_, ?_, ?_⟩
  · intro i s hf hv hok
    exact TableBuilt.exec_tableRead ⟨hv, hok hv⟩ i hf
  · intro i s hf hv
    exact exec_tableRead_built i hf hv
  · intro i s hf hv
    exact exec_tableRead_notBuilt i hf hv

/-! ### The built table over a run (R144) -/

/-- No command undoes a build: it keeps the table, or builds it anew with the same entries. -/
theorem Change.tableBuilt {i : Instr} {s u : State} (h : Change i s u) (hs : TableBuilt s) : TableBuilt u := by
  obtain ⟨htable, hvalid⟩ | ⟨hu, _⟩ := h.table
  · rwa [TableBuilt, htable, hvalid]
  · exact hu

theorem step_tableBuilt {s t : State} (hs : TableBuilt s) (h : step s = .next t) : TableBuilt t := by
  obtain ⟨p, m, f, r, n, _, rfl⟩ | ⟨c, rest, i, u, f, r, n, _, _, hc, rfl⟩ := step_change h
  · exact hs
  · have hu : TableBuilt u := hc.tableBuilt hs
    exact hu

/-- What every step keeps holds after any run. -/
theorem RunsTo.keeps {P : State → Prop} (hstep : ∀ {s t : State}, P s → step s = .next t → P t) {k : Nat} {s t : State}
    (hr : RunsTo k s t) (hs : P s) : P t := by
  induction k generalizing s with
  | zero =>
    obtain rfl := runsTo_zero.mp hr
    exact hs
  | succ k ih =>
    obtain ⟨u, hu, hr⟩ := runsTo_succ.mp hr
    exact ih hr (hstep hs hu)

/-- Settles O49: a table that is built and right stays so over the run, which fixes its entries and so every TABLE_READ. -/
theorem tableIsStable : Obligations.TableIsStable := by
  intro k s t hv hok hr
  have hs : TableBuilt s := ⟨hv, hok hv⟩
  have ht : TableBuilt t := hr.keeps step_tableBuilt hs
  refine ⟨ht.left, hs.table_eq ht, ?_⟩
  intro hf i
  exact ⟨_, ht.exec_tableRead i hf, rfl⟩

end Sys2Proof.Machine
end

section
/-! PROOFS. 43_accumulator.md: an update of an admitted region is, in every mode, one write of the reference fold into its slot over
the state that detection and the lazy build prepare; and what a slot that is being streamed into holds, kept along any sequence of
updates and FINALIZEs. -/

namespace Sys2Proof.Machine

/-! ### The fold of an update (R155, R160, R165; 40_reduction.md R112) -/

/-- After the preparation a fold reads `T`: the software path finds the table built, and the hardware paths read no table. So a fold
that is `g` on a table of `T`, whatever the strategy, writes `g` of the register. -/
theorem foldBy_eq_writeAcc {f : RegFile Word → Strategy → Word → Word} {g : Word → Word} (hf : ReadsTableInSoftwareOnly f)
    (hg : ∀ st r, f builtTable st r = g r) {s : State} (hok : s.TableOk) (a : SlotIx) :
    foldBy f a s = writeAcc a (g (s.acc.get a)) (prepare s) := by
  have htable : f (prepare s).table (strategyOf (prepare s)) = f builtTable (strategyOf (prepare s)) :=
    hf builtTable _ _ fun hst => table_eq_builtTable (prepare_tableOk hok (prepare_tableValid_of_strategyOf s hst))
  rw [foldBy, htable, hg, readAcc, prepare_acc]

theorem foldInto_eq_writeAcc {s : State} (hok : s.TableOk) (a : SlotIx) (bytes : List Byte) :
    foldInto a bytes s = writeAcc a (fold (s.acc.get a) bytes) (prepare s) :=
  foldBy_eq_writeAcc (path_readsTable bytes) (fun st r => path_eq_fold builtTable_get st r bytes) hok a

theorem foldByteInto_eq_writeAcc {s : State} (hok : s.TableOk) (a : SlotIx) (b : Byte) :
    foldByteInto a b s = writeAcc a (swByte (s.acc.get a) b) (prepare s) :=
  foldBy_eq_writeAcc (byteStep_readsTable b) (fun st r => byteStep_eq_swByte builtTable_get st r b) hok a

theorem foldRegion_of_region {s : State} {p n : Nat} {bytes : List Byte} (hok : s.TableOk) (a : SlotIx) (hn : bytes.length = n)
    (hr : s.Region p bytes) : foldRegion a p n s = complete none (writeAcc a (fold (s.acc.get a) bytes) (prepare s)) := by
  rw [foldRegion, regionBytes_eq_some_iff_region.mpr ⟨hn, hr⟩]
  exact congrArg (complete none) (foldInto_eq_writeAcc hok a bytes)

/-- An update whose own checks pass, in every mode: one write of the reference fold over the prepared state. -/
theorem State.Folds.exec_eq {s : State} {a : SlotIx} {i : Instr} {bytes : List Byte} (h : s.Folds a i bytes)
    (hf : s.fault = none) (hl : s.Live a) (hok : s.TableOk) :
    exec i s = complete none (writeAcc a (fold (s.acc.get a) bytes) (prepare s)) := by
  cases i with
  | update b base len off cnt =>
    obtain ⟨rfl, hin, hn, hr⟩ := h
    have hb : outOfBounds len off cnt = false := by simpa [outOfBounds] using hin
    rw [exec_update_eq, withLiveSlot_running _ hf hl, hb]
    exact foldRegion_of_region hok b hn hr
  | updateOne b x =>
    obtain ⟨rfl, rfl⟩ := h
    exact (withLiveSlot_running _ hf hl).trans (congrArg (complete none) (foldByteInto_eq_writeAcc hok b x))
  | updateRaw b ptr cnt =>
    obtain ⟨rfl, hn, hr⟩ := h
    rw [exec_updateRaw_eq, withLiveSlot_running _ hf hl]
    exact foldRegion_of_region hok b hn hr
  | accNew | setMode | buildTable | finalize | getMode | tableRead => exact h.elim

/-! ### The frame of an update -/

theorem prepare_tableValid (s : State) :
    (prepare s).tableValid = (s.tableValid || decide (s.detectedMode = .softwareTable)) := by
  by_cases hm : s.detectedMode = .softwareTable
  · simp [prepare_table s hm, hm]
  · obtain e | ⟨hsw, _⟩ := prepare_cases s
    · simp [e, hm]
    · exact absurd hsw hm

/-- A preparation that does not newly build the table keeps its entries: a right table built once more is the same table. -/
theorem prepare_table_eq {s : State} (hok : s.TableOk) (hv : (prepare s).tableValid = s.tableValid) :
    (prepare s).table = s.table := by
  obtain e | ⟨_, e⟩ := prepare_cases s
  · rw [e]
  · have hs : s.tableValid = true := by rw [← hv, e]
    rw [e, table_eq_builtTable (hok hs)]

theorem updateFrame_of_complete {a : SlotIx} {v : Word} {s t : State} (hf : s.fault = none) (hok : s.TableOk)
    (h : complete none (writeAcc a v (prepare s)) = .next t) : UpdateFrame a s t := by
  obtain rfl := complete_next h
  exact
    { mode := prepare_mode s
      tableValid := prepare_tableValid s
      tableBuilt := prepare_tableOk hok
      tableKept := fun hv i => congrArg (·.get i) (prepare_table_eq hok hv)
      otherSlots := fun b hb => by simp [RegFile.get_set_ne _ _ hb]
      valid := by simp
      host := by simp [HostSame]
      done := by simp [CompletedOk, hf] }

/-- What every admitted update leaves in every mode: the fold in its slot, and the frame of an update. -/
theorem State.Folds.exec_updateFrame {s : State} {a : SlotIx} {i : Instr} {bytes : List Byte} (h : s.Folds a i bytes)
    (hf : s.fault = none) (hl : s.Live a) (hok : s.TableOk) :
    ∃ t, exec i s = .next t ∧ t.acc.get a = fold (s.acc.get a) bytes ∧ UpdateFrame a s t :=
  ⟨_, h.exec_eq hf hl hok, RegFile.get_set_same _ _ _, updateFrame_of_complete hf hok rfl⟩

/-- Settles O36: UPDATE_ONE is the admitted update of its one byte. -/
theorem updateOneFoldsTheByte : Obligations.UpdateOneFoldsTheByte := by
  intro a b s hf hl hok
  have h : s.Folds a (.updateOne a b) [b] := ⟨rfl, rfl⟩
  exact h.exec_updateFrame hf hl hok

/-- Settles O37: an UPDATE within bounds of a readable region is the admitted update of the region's bytes. -/
theorem updateFoldsTheBytes : Obligations.UpdateFoldsTheBytes := by
  intro a base len off cnt bytes s hf hl hok hin hn hr
  have h : s.Folds a (.update a base len off cnt) bytes := ⟨rfl, hin, hn, hr⟩
  exact h.exec_updateFrame hf hl hok

/-- Settles O38: an UPDATE_RAW of a readable region is the admitted update of the region's bytes. -/
theorem updateRawFoldsTheBytes : Obligations.UpdateRawFoldsTheBytes := by
  intro a ptr cnt bytes s hf hl hok hn hr
  have h : s.Folds a (.updateRaw a ptr cnt) bytes := ⟨rfl, hn, hr⟩
  exact h.exec_updateFrame hf hl hok

/-- Settles O43: the host's side and FAULT as for every command, and no update is the ACC_NEW that could set a valid bit. -/
theorem accumulatorCommandsFrame : Obligations.AccumulatorCommandsFrame := by
  refine ⟨?_, ?_⟩
  · intro i s t _ h
    refine ⟨exec_hostSame h, ?_⟩
    obtain hk | ⟨c, hf, _, rfl⟩ := exec_fault h
    · exact .inl hk
    · exact .inr ⟨c, hf, rfl, rfl⟩
  · intro i s t hu h
    obtain ⟨_, _, hvalid⟩ := slotsAreLeftAlone
    apply RegFile.ext_get
    intro b
    obtain hk | ⟨rfl, _⟩ := hvalid i s t b h
    · exact hk
    · cases hu

/-! ### FINALIZE (R170) -/

/-- Settles O39: the checks pass, and the effect is the response alone. -/
theorem finalizeReturnsTheComplement : Obligations.FinalizeReturnsTheComplement :=
  fun _ _ hf hl => withLiveSlot_running _ hf hl

/-! ### A slot that is being streamed into (R171) -/

/-- No command spoils the table: it is kept, or built with `T` in every entry. -/
theorem exec_tableOk {i : Instr} {s t : State} (h : exec i s = .next t) (hok : s.TableOk) : t.TableOk := by
  obtain ⟨u, f, r, n, hc, rfl⟩ := exec_change h
  obtain ⟨htable, hvalid⟩ | ⟨⟨_, hb⟩, _⟩ := hc.table
  · intro hv i
    rw [htable]
    exact hok (hvalid.symm.trans hv) i
  · exact fun _ => hb

/-- No command ends the life of a slot. -/
theorem exec_live {i : Instr} {a : SlotIx} {s t : State} (h : exec i s = .next t) (hl : s.Live a) : t.Live a := by
  obtain ⟨ha, hv⟩ := hl
  obtain ⟨hcfg, _⟩ := exec_hostSame h
  obtain ⟨_, _, hvalid⟩ := slotsAreLeftAlone
  refine ⟨hcfg ▸ ha, ?_⟩
  obtain hk | ⟨_, hset⟩ := hvalid i s t a h
  · exact hk.trans hv
  · exact hset

/-- In state `t`, on the host of `s`, slot `a` is live and holds `r`, the block has no fault and a built table is right: what any
update and any FINALIZE of the slot finds and leaves. -/
structure Streaming (a : SlotIx) (s : State) (r : Word) (t : State) : Prop where
  cfg : t.cfg = s.cfg
  mem : t.mem = s.mem
  fault : t.fault = none
  live : t.Live a
  tableOk : t.TableOk
  acc : t.acc.get a = r

/-- A command that does not fault keeps all of it but the register. -/
theorem Streaming.next {a : SlotIx} {s t u : State} {r v : Word} {i : Instr} (h : Streaming a s r t) (hx : exec i t = .next u)
    (hf : u.fault = none) (hv : u.acc.get a = v) : Streaming a s v u := by
  obtain ⟨hcfg, hmem, _, _⟩ := exec_hostSame hx
  exact
    { cfg := hcfg.trans h.cfg
      mem := hmem.trans h.mem
      fault := hf
      live := exec_live hx h.live
      tableOk := exec_tableOk hx h.tableOk
      acc := hv }

/-- Whether an update is admitted depends on the host's configuration and memory alone. -/
theorem State.Folds.of_host {s t : State} {a : SlotIx} {i : Instr} {bytes : List Byte} (h : s.Folds a i bytes)
    (hcfg : t.cfg = s.cfg) (hmem : t.mem = s.mem) : t.Folds a i bytes := by
  unfold State.Folds State.Region at h ⊢
  rwa [hcfg, hmem]

theorem Streaming.update {a : SlotIx} {s t : State} {r : Word} {i : Instr} {bytes : List Byte} (h : Streaming a s r t)
    (hi : s.Folds a i bytes) : ∃ u, exec i t = .next u ∧ Streaming a s (fold r bytes) u := by
  obtain ⟨u, hx, hacc, hframe⟩ := (hi.of_host h.cfg h.mem).exec_updateFrame h.fault h.live h.tableOk
  obtain ⟨hf, _, _⟩ := hframe.done
  exact ⟨u, hx, h.next hx hf (h.acc ▸ hacc)⟩

theorem Streaming.finalize {a : SlotIx} {s t : State} {r : Word} (h : Streaming a s r t) :
    ∃ u, exec (.finalize a) t = .next u ∧ u.response = some (.ok (some (~~~r))) ∧ Streaming a s r u := by
  have hx := finalizeReturnsTheComplement a t h.fault h.live
  exact ⟨_, hx, by rw [h.acc], h.next hx h.fault h.acc⟩

/-- ACC_NEW starts a stream from INIT. -/
theorem exists_streaming_accNew {a : SlotIx} {s : State} (hf : s.fault = none) (ha : a.toNat < s.cfg.accCount) (hok : s.TableOk) :
    ∃ t, exec (.accNew a) s = .next t ∧ Streaming a s 0xFFFFFFFF t := by
  obtain ⟨t, hx, hacc, hvalid, _, _, _, _, ⟨hcfg, hmem, _, _⟩, hft, _⟩ := accNewStartsTheSlot a s hf ha
  exact ⟨t, hx,
    { cfg := hcfg, mem := hmem, fault := hft, live := ⟨hcfg ▸ ha, hvalid⟩, tableOk := exec_tableOk hx hok, acc := hacc }⟩

/-- A sequence each of whose commands streams its bytes streams all of them, in order. -/
theorem Streaming.execAll_of_forall {a : SlotIx} {s : State} {cs : List (Instr × List Byte)}
    (hstep : ∀ c ∈ cs, ∀ r t, Streaming a s r t → ∃ u, exec c.1 t = .next u ∧ Streaming a s (fold r c.2) u) {r : Word} {t : State}
    (h : Streaming a s r t) :
    ∃ u, execAll (cs.map Prod.fst) t = .next u ∧ Streaming a s (fold r (cs.flatMap Prod.snd)) u := by
  induction cs generalizing r t with
  | nil => exact ⟨t, rfl, h⟩
  | cons c cs ih =>
    obtain ⟨u, hu, hs⟩ := hstep c List.mem_cons_self r t h
    obtain ⟨v, hv, hs⟩ := ih (fun d hd => hstep d (List.mem_cons_of_mem c hd)) hs
    refine ⟨v, execAll_cons_next.mpr ⟨u, hu, hv⟩, ?_⟩
    rwa [List.flatMap_cons, fold_append]

theorem Streaming.execAll_updates_finalizes {a : SlotIx} {s t : State} {cs : List (Instr × List Byte)} {r : Word}
    (hcs : ∀ c ∈ cs, s.Folds a c.1 c.2 ∨ c = (.finalize a, [])) (h : Streaming a s r t) :
    ∃ u, execAll (cs.map Prod.fst) t = .next u ∧ Streaming a s (fold r (cs.flatMap Prod.snd)) u := by
  refine Streaming.execAll_of_forall (fun c hc r t h => ?_) h
  obtain hi | rfl := hcs c hc
  · exact h.update hi
  · obtain ⟨u, hx, _, hs⟩ := h.finalize
    exact ⟨u, hx, hs⟩

/-- Settles O59: from INIT the slot streams `cs`, then `ds`, and each FINALIZE answers the complement of what it holds. -/
theorem finalizeAmongAnyUpdates : Obligations.FinalizeAmongAnyUpdates := by
  intro a cs ds s hf ha hok hall
  obtain ⟨t0, h0, hs⟩ := exists_streaming_accNew hf ha hok
  obtain ⟨t1, h1, hs⟩ := hs.execAll_updates_finalizes fun c hc => hall c (List.mem_append_left ds hc)
  obtain ⟨t2, h2, hr2, hs⟩ := hs.finalize
  obtain ⟨t3, h3, hs⟩ := hs.execAll_updates_finalizes fun c hc => hall c (List.mem_append_right cs hc)
  obtain ⟨t4, h4, hr4, _⟩ := hs.finalize
  exact ⟨t0, t1, t2, t3, t4, h0, h1, h2, h3, h4, hr2, by rw [hr4, fold_append]⟩

/-- Settles O55: the stream of two UPDATE_RAWs with a FINALIZE after each. -/
theorem finalizeMidStream : Obligations.FinalizeMidStream := by
  intro a p1 p2 b1 b2 s hf ha hok hr1 hr2
  obtain ⟨t0, h0, hs⟩ := exists_streaming_accNew hf ha hok
  obtain ⟨t1, h1, hs⟩ := hs.update (i := .updateRaw a p1 b1.length) ⟨rfl, rfl, hr1⟩
  obtain ⟨t2, h2, hans2, hs⟩ := hs.finalize
  obtain ⟨t3, h3, hs⟩ := hs.update (i := .updateRaw a p2 b2.length) ⟨rfl, rfl, hr2⟩
  obtain ⟨t4, h4, hans4, _⟩ := hs.finalize
  exact ⟨t0, t1, t2, t3, t4, h0, h1, h2, h3, h4, hans2, by rw [hans4, fold_append]⟩

end Sys2Proof.Machine
end

section
/-! PROOFS. 60_exceptions.md: what a faulted block answers, that FAULT is sticky over a step and a run, the two checks of a named slot,
and the rejection of an UPDATE out of bounds. -/

namespace Sys2Proof.Machine

/-! ### A faulted block (R201, R209, R210) -/

/-- Of the four things a command can do only the answer with the recorded cause is open to a faulted block. -/
theorem exec_faulted (i : Instr) {s : State} {c : Cause} (hc : s.fault = some c) :
    exec i s = .next { s with response := some (.fault c) } := by
  obtain ⟨t, _, h, _⟩ := answers_exec i s
  rw [h]
  obtain ⟨d, hd, rfl⟩ | ⟨hf, _⟩ | ⟨hf, _⟩ | ⟨hf, _⟩ := exec_next h
  · obtain rfl := Option.some.inj (hd.symm.trans hc)
    rfl
  all_goals cases hf.symm.trans hc

theorem step_of_illegalCommand_faulted {s : State} {c : Cause} {x : Command} {rest : List PortEvent} (hc : s.fault = some c)
    (hp : s.port = .command x :: rest) (hd : decode s.cfg.addrW x = .error .illegalCommand) :
    step s = .next { s with port := rest, response := some (.fault c) } := by
  have hfetch : fetch s = .illegal { s with port := rest } := by simp [fetch, hp, hd]
  rw [step, hfetch]
  exact unlessFaulted_faulted _ hc

/-- Settles O57: check 1 of R206 comes before the check of the word. -/
theorem illegalWordOnAFaultedBlock : Obligations.IllegalWordOnAFaultedBlock :=
  fun _ _ _ _ => step_of_illegalCommand_faulted

/-- FAULT is sticky: a host write does not touch it, and neither a command nor an illegal word gets past check 1 of R206. -/
theorem step_fault_of_faulted {s t : State} {c : Cause} (hc : s.fault = some c) (h : step s = .next t) : t.fault = some c := by
  obtain ⟨_, rfl⟩ | ⟨x, b, rest, _, rfl⟩ | ⟨x, rest, i, _, _, h⟩ | ⟨x, rest, hp, hd, _⟩ := step_next h
  · exact hc
  · exact hc
  · have hx : exec i { s with port := rest } = .next { s with port := rest, response := some (.fault c) } := exec_faulted i hc
    cases hx.symm.trans h
    exact hc
  · cases (step_of_illegalCommand_faulted hc hp hd).symm.trans h
    exact hc

/-- A command that ends faulted in a block that had no fault raised one of its own faults, and that is all it did. -/
theorem exec_precise {i : Instr} {s t : State} {c : Cause} (hf : s.fault = none) (h : exec i s = .next t) (hc : t.fault = some c) :
    t = { s with fault := some c, response := some (.fault c) } := by
  obtain hk | ⟨d, _, _, rfl⟩ := exec_fault h
  · cases (hk.trans hf).symm.trans hc
  · cases hc
    rfl

/-- Settles O26, by what a command can do to FAULT, check 1 of R206 for a command and for an illegal word, and the step. -/
theorem faultsArePreciseAndSticky : Obligations.FaultsArePreciseAndSticky :=
  ⟨fun _ _ _ _ => exec_precise, fun i _ _ => exec_faulted i,
    fun _ _ _ rest hc hp hd => ⟨rest, step_of_illegalCommand_faulted hc hp hd⟩, fun _ _ _ => step_fault_of_faulted⟩

/-! ### Runs (R201) -/

/-- A run of `j + k` steps is one of `j` steps and one of `k` steps from there. -/
theorem runsTo_add {j k : Nat} {s t : State} : RunsTo (j + k) s t ↔ ∃ u : State, RunsTo j s u ∧ RunsTo k u t := by
  induction j generalizing s with
  | zero => simp [runsTo_zero]
  | succ j ih =>
    simp only [Nat.succ_add, runsTo_succ, ih]
    constructor
    · rintro ⟨v, hv, u, hu, h⟩
      exact ⟨u, ⟨v, hv, hu⟩, h⟩
    · rintro ⟨u, ⟨v, hv, hu⟩, h⟩
      exact ⟨v, hv, u, hu, h⟩

/-- Settles O50: a fault at the middle state would still stand at the end. -/
theorem unfaultedRunNeverFaulted : Obligations.UnfaultedRunNeverFaulted := by
  intro j k s t hr hf
  obtain ⟨u, hj, hk⟩ := runsTo_add.mp hr
  refine ⟨u, hj, hk, ?_⟩
  cases hu : u.fault with
  | none => rfl
  | some c => cases hf.symm.trans (hk.keeps step_fault_of_faulted hu)

/-! ### The checks of the slot a command names (R202, R203, R206, R207) -/

/-- The check that the slot exists stands around all else of a command that names one. -/
theorem exec_eq_withSlot {i : Instr} {a : SlotIx} (s : State) (hi : slotOf i = some a) : ∃ k, exec i s = withSlot a s k := by
  cases i with
  | accNew | update | updateOne | updateRaw | finalize => cases hi; exact ⟨_, rfl⟩
  | setMode | buildTable | getMode | tableRead => cases hi

/-- And around all else but that, where the command needs its slot live, the check that it is. -/
theorem exec_eq_withLiveSlot {i : Instr} {a : SlotIx} (s : State) (hi : slotOf i = some a) (hl : needsLive i = true) :
    ∃ k, exec i s = withLiveSlot a s k := by
  cases i with
  | update | updateOne | updateRaw | finalize => cases hi; exact ⟨_, rfl⟩
  | accNew | setMode | buildTable | getMode | tableRead => cases hl

theorem withLiveSlot_notLive {a : SlotIx} {s : State} (k : StepResult) (hf : s.fault = none) (ha : a.toNat < s.cfg.accCount)
    (hv : s.accValid.get a = false) : withLiveSlot a s k = raiseFault .slotNotInitialised s :=
  (withSlot_running _ hf ha).trans (if_neg (ne_true_of_eq_false hv))

/-- Settles O27: the slot does not exist, so nothing behind its check is reached. -/
theorem badSlotFaults : Obligations.BadSlotFaults := by
  intro i a s hi hf ha
  obtain ⟨k, hk⟩ := exec_eq_withSlot s hi
  exact hk.trans (withSlot_bad k hf ha)

/-- Settles O28: the slot exists but is not live, so nothing behind its checks is reached, UPDATE's bounds included. -/
theorem slotNotInitialisedFaults : Obligations.SlotNotInitialisedFaults := by
  intro i a s hi hl hf ha hv
  obtain ⟨k, hk⟩ := exec_eq_withLiveSlot s hi hl
  exact hk.trans (withLiveSlot_notLive k hf ha hv)

/-! ### A rejected UPDATE (R205) -/

theorem exec_update_outOfBounds {a : SlotIx} {base len off cnt : Nat} {s : State} (hf : s.fault = none) (hl : s.Live a)
    (hb : len < off + cnt) : exec (.update a base len off cnt) s = rejectOutOfRange s := by
  rw [exec_update_eq, withLiveSlot_running _ hf hl]
  exact if_pos (decide_eq_true hb)

/-- Settles O29: the rejection writes the response and the position only, and FINALIZE reads neither. -/
theorem updateOutOfRange : Obligations.UpdateOutOfRange := by
  intro a base len off cnt s hf hl hb
  refine ⟨_, exec_update_outOfBounds hf hl hb, rfl, fun b hlb => ?_⟩
  exact ⟨_, _, finalizeReturnsTheComplement b s hf hlb, finalizeReturnsTheComplement b _ hf hlb, rfl⟩

end Sys2Proof.Machine
end

section
/-! PROOFS. 70_reset_and_hazards.md: a block with nothing pending and an item that is no command, and SET_MODEs among the updates of a
slot: SET_MODE is one more command that a slot's stream goes through unchanged. -/

namespace Sys2Proof.Machine

/-! ### An empty port and malformed items (R231) -/

theorem step_of_port_nil {s : State} (hp : s.port = []) : step s = .next s := by
  have hfetch : fetch s = .waiting := by simp [fetch, hp]
  rw [step, hfetch]

theorem step_of_fetch_malformed {s : State} {f : Fault} (h : fetch s = .malformed f) : step s = .fault f := by
  rw [step, h]

/-- Settles O22: the fetch finds nothing pending, or names the fault the decoder's error stands for. -/
theorem emptyPortWaitsAndMalformedItemsStop : Obligations.EmptyPortWaitsAndMalformedItemsStop := by
  refine ⟨fun _ => step_of_port_nil, ?_, ?_, ?_⟩
  all_goals
    intro s c rest hp hd
    exact step_of_fetch_malformed (by simp [fetch, hp, hd])

/-! ### The position after a sequence (R31) -/

theorem exec_position {i : Instr} {s t : State} (h : exec i s = .next t) (hf : t.fault = none) : t.position = s.position + 1 := by
  obtain ⟨_, ⟨_, rfl⟩ | ⟨_, u, he, rfl⟩⟩ := exec_of_fault_none h hf
  · rfl
  · obtain ⟨_, _, _, _, hn⟩ := he.frame
    exact congrArg (· + 1) hn

/-- In a sequence that ends unfaulted every command completed. -/
theorem execAll_position {cs : List Instr} {s t : State} (h : execAll cs s = .next t) (hf : t.fault = none) :
    t.position = s.position + cs.length := by
  induction cs generalizing s with
  | nil => cases h; rfl
  | cons i cs ih =>
    obtain ⟨u, hu, h⟩ := execAll_cons_next.mp h
    rw [ih h, exec_position hu (execAll_fault_none h hf), List.length_cons, Nat.add_assoc, Nat.add_comm 1]

/-! ### SET_MODE in a stream (R241, R124, R125) -/

/-- A live slot of an unfaulted block streams on from what it holds. -/
theorem Streaming.refl {a : SlotIx} {s : State} (hf : s.fault = none) (hl : s.Live a) (hok : s.TableOk) :
    Streaming a s (s.acc.get a) s :=
  { cfg := rfl, mem := rfl, fault := hf, live := hl, tableOk := hok, acc := rfl }

theorem Streaming.setMode {a : SlotIx} {s t : State} {r : Word} {m : Mode} (h : Streaming a s r t)
    (hm : supported m s.cfg.hwLevel = true) : ∃ u, exec (.setMode m) t = .next u ∧ Streaming a s r u := by
  have hx := exec_setMode_supported (m := m) h.fault (h.cfg ▸ hm)
  exact ⟨_, hx, h.next hx h.fault h.acc⟩

/-- Settles O58: the sequence streams its bytes, whatever MODE each update finds, and a FINALIZE answers the complement of the
fold. -/
theorem modeChangesAmongAnyUpdates : Obligations.ModeChangesAmongAnyUpdates := by
  intro a cs s hf hl hok hcs
  have hstep (c) (hc : c ∈ cs) (r t) (h : Streaming a s r t) : ∃ u, exec c.1 t = .next u ∧ Streaming a s (fold r c.2) u := by
    obtain hi | ⟨m, rfl, hm⟩ := hcs c hc
    · exact h.update hi
    · exact h.setMode hm
  obtain ⟨t, ht, hs⟩ := Streaming.execAll_of_forall hstep (.refl hf hl hok)
  obtain ⟨u, hu, hans, _⟩ := hs.finalize
  exact ⟨t, u, ht, hs.fault, by simpa using execAll_position ht hs.fault, hs.acc, hu, hans⟩

/-! ### A region in two chunks -/

/-- Both chunks of a region are regions; one of them may be empty. -/
theorem State.Region.chunks {s : State} {p : Nat} {xs ys : List Byte} (h : s.Region p (xs ++ ys)) :
    s.Region p xs ∧ s.Region (p + xs.length) ys := by
  obtain hnil | ⟨htop, hbytes⟩ := h
  · obtain ⟨hx, hy⟩ := List.append_eq_nil_iff.mp hnil
    exact ⟨.inl hx, .inl hy⟩
  · have hlen : (xs ++ ys).length = xs.length + ys.length := List.length_append
    refine ⟨.inr ⟨by omega, fun k hk => ?_⟩, .inr ⟨by omega, fun k hk => ?_⟩⟩
    · rw [hbytes k (by omega), List.getElem_append_left hk]
    · rw [Nat.add_assoc, hbytes (xs.length + k) (by omega)]
      simp

/-- Settles O54: the stream of the first chunk goes on through the SET_MODE, and the second chunk is folded on. -/
theorem modeChangeIsNoHazard : Obligations.ModeChangeIsNoHazard := by
  intro a ptr b1 b2 m s hf hl hok hr hm
  obtain ⟨hr1, hr2⟩ := hr.chunks
  have hi2 : s.Folds a (.updateRaw a (ptr + b1.length) b2.length) b2 := ⟨rfl, rfl, hr2⟩
  obtain ⟨t1, h1, hs⟩ := (Streaming.refl hf hl hok).update (i := .updateRaw a ptr b1.length) ⟨rfl, rfl, hr1⟩
  obtain ⟨t2, h2, hs⟩ := hs.setMode hm
  obtain ⟨t3, h3, hacc, hframe⟩ := (hi2.of_host hs.cfg hs.mem).exec_updateFrame hs.fault hs.live hs.tableOk
  obtain ⟨_, hresp, _⟩ := hframe.done
  exact ⟨t1, t2, t3, h1, h2, h3, hresp, by rw [hacc, hs.acc, fold_append]⟩

end Sys2Proof.Machine
end
